-- ==== Sys2Proof/Word.lean ====
section
/-! DEFINITION. The word types of the CHIP-8 core: bytes, 16-bit words and register numbers (10_state.md R20, 30_encoding.md R91). -/

namespace Sys2Proof

/-- An 8-bit value: a register of `V`, a byte of memory, a timer (R6). -/
abbrev Byte := BitVec 8

/-- A 16-bit value: an opcode, `pc`, `I`, a stack slot, `ir`, the key mask (R6). -/
abbrev Word := BitVec 16

/-- The 12-bit address field `nnn` of an opcode (R91). -/
abbrev Addr := BitVec 12

/-- The 4-bit field `n` of an opcode (R91). -/
abbrev Nibble := BitVec 4

/-- A register number, 0 to 15: every value names a register (R21). -/
abbrev Reg := Fin 16

end Sys2Proof
end

