-- ==== Sys2Proof/Syntax.lean ====
section
/-! DEFINITION. The 35 instructions (00_scope.md R2, 30_encoding.md R95), one constructor per row of
spec/opcode_table.json, in the table's order. The operand fields are those of R91 and R92. -/

namespace Sys2Proof

/-- An instruction. `x` and `y` are register numbers, `nn` an 8-bit and `nnn` a 12-bit immediate, `n` a nibble. -/
inductive Instr where
  /-- 00E0, CLS (R140). -/
  | cls
  /-- 00EE, RET (R141). -/
  | ret
  /-- 0NNN, SYS nnn: the legacy no-op (R142). -/
  | sys (nnn : Addr)
  /-- 1NNN, JP nnn (R143). -/
  | jp (nnn : Addr)
  /-- 2NNN, CALL nnn (R144). -/
  | call (nnn : Addr)
  /-- 3XNN, SE Vx, nn (R145). -/
  | seImm (x : Reg) (nn : Byte)
  /-- 4XNN, SNE Vx, nn (R146). -/
  | sneImm (x : Reg) (nn : Byte)
  /-- 5XYn, SE Vx, Vy (R147); `n` is the ignored low nibble (R98). -/
  | seReg (x y : Reg) (n : Nibble)
  /-- 6XNN, LD Vx, nn (R160). -/
  | ldImm (x : Reg) (nn : Byte)
  /-- 7XNN, ADD Vx, nn (R161). -/
  | addImm (x : Reg) (nn : Byte)
  /-- 8XY0, LD Vx, Vy (R162). -/
  | ldReg (x y : Reg)
  /-- 8XY1, OR Vx, Vy (R163). -/
  | orReg (x y : Reg)
  /-- 8XY2, AND Vx, Vy (R164). -/
  | andReg (x y : Reg)
  /-- 8XY3, XOR Vx, Vy (R165). -/
  | xorReg (x y : Reg)
  /-- 8XY4, ADD Vx, Vy (R166). -/
  | addReg (x y : Reg)
  /-- 8XY5, SUB Vx, Vy (R167). -/
  | subReg (x y : Reg)
  /-- 8XY6, SHR Vx, Vy (R168). -/
  | shrReg (x y : Reg)
  /-- 8XY7, SUBN Vx, Vy (R169). -/
  | subnReg (x y : Reg)
  /-- 8XYE, SHL Vx, Vy (R170). -/
  | shlReg (x y : Reg)
  /-- 9XYn, SNE Vx, Vy (R148); `n` is the ignored low nibble (R98). -/
  | sneReg (x y : Reg) (n : Nibble)
  /-- ANNN, LD I, nnn (R220). -/
  | ldI (nnn : Addr)
  /-- BNNN, JP V0, nnn (R149). -/
  | jpV0 (nnn : Addr)
  /-- CXNN, RND Vx, nn (R171). -/
  | rnd (x : Reg) (nn : Byte)
  /-- DXYN, DRW Vx, Vy, n (R194). -/
  | drw (x y : Reg) (n : Nibble)
  /-- EX9E, SKP Vx (R210). -/
  | skp (x : Reg)
  /-- EXA1, SKNP Vx (R211). -/
  | sknp (x : Reg)
  /-- FX07, LD Vx, DT (R221). -/
  | ldVxDt (x : Reg)
  /-- FX0A, LD Vx, K (R212). -/
  | ldVxK (x : Reg)
  /-- FX15, LD DT, Vx (R222). -/
  | ldDtVx (x : Reg)
  /-- FX18, LD ST, Vx (R223). -/
  | ldStVx (x : Reg)
  /-- FX1E, ADD I, Vx (R224). -/
  | addI (x : Reg)
  /-- FX29, LD F, Vx (R225). -/
  | ldF (x : Reg)
  /-- FX33, LD B, Vx (R226). -/
  | ldB (x : Reg)
  /-- FX55, LD [I], Vx (R227). -/
  | storeRegs (x : Reg)
  /-- FX65, LD Vx, [I] (R228). -/
  | loadRegs (x : Reg)
deriving DecidableEq, Repr

end Sys2Proof
end

