-- ==== Sys2Proof/Decode.lean ====
section
/-! DEFINITION. Decoding, total on any bytes and rejecting by name, and the encoder (30_encoding.md). -/

namespace Sys2Proof

/-- Why bytes are no instruction. -/
inductive DecodeError where
  /-- Fewer than the two bytes every instruction has (R90). -/
  | tooShort
  /-- One of the 9808 words that decode to no instruction (R100). -/
  | unknownInstruction (op : Word)
deriving DecidableEq, Repr

/-- The bit slice `op[lo+w-1 : lo]` (R10). -/
def slice (op : Word) (lo w : Nat) : BitVec w := op.extractLsb' lo w

/-- The register number in the four bits from `lo` up (R91). -/
def regField (op : Word) (lo : Nat) : Reg := ⟨(slice op lo 4).toNat, (slice op lo 4).isLt⟩

/-- The fields of R91. -/
def fieldX (op : Word) : Reg := regField op 8
def fieldY (op : Word) : Reg := regField op 4
def fieldN (op : Word) : Nibble := slice op 0 4
def fieldNN (op : Word) : Byte := slice op 0 8
def fieldNNN (op : Word) : Addr := slice op 0 12
def family (op : Word) : Nat := (slice op 12 4).toNat

/-- Family 0 is matched on the whole word (R97). -/
def decodeFamily0 (op : Word) : Except DecodeError Instr :=
  if op = 0x00E0 then .ok .cls
  else if op = 0x00EE then .ok .ret
  else .ok (.sys (fieldNNN op))

/-- Family 8 selects on the low nibble (R99). -/
def decodeFamily8 (op : Word) : Except DecodeError Instr :=
  match (fieldN op).toNat with
  | 0x0 => .ok (.ldReg (fieldX op) (fieldY op))
  | 0x1 => .ok (.orReg (fieldX op) (fieldY op))
  | 0x2 => .ok (.andReg (fieldX op) (fieldY op))
  | 0x3 => .ok (.xorReg (fieldX op) (fieldY op))
  | 0x4 => .ok (.addReg (fieldX op) (fieldY op))
  | 0x5 => .ok (.subReg (fieldX op) (fieldY op))
  | 0x6 => .ok (.shrReg (fieldX op) (fieldY op))
  | 0x7 => .ok (.subnReg (fieldX op) (fieldY op))
  | 0xE => .ok (.shlReg (fieldX op) (fieldY op))
  | _ => .error (.unknownInstruction op)

/-- Family E selects on the low byte (R99). -/
def decodeFamilyE (op : Word) : Except DecodeError Instr :=
  match (fieldNN op).toNat with
  | 0x9E => .ok (.skp (fieldX op))
  | 0xA1 => .ok (.sknp (fieldX op))
  | _ => .error (.unknownInstruction op)

/-- Family F selects on the low byte (R99). -/
def decodeFamilyF (op : Word) : Except DecodeError Instr :=
  match (fieldNN op).toNat with
  | 0x07 => .ok (.ldVxDt (fieldX op))
  | 0x0A => .ok (.ldVxK (fieldX op))
  | 0x15 => .ok (.ldDtVx (fieldX op))
  | 0x18 => .ok (.ldStVx (fieldX op))
  | 0x1E => .ok (.addI (fieldX op))
  | 0x29 => .ok (.ldF (fieldX op))
  | 0x33 => .ok (.ldB (fieldX op))
  | 0x55 => .ok (.storeRegs (fieldX op))
  | 0x65 => .ok (.loadRegs (fieldX op))
  | _ => .error (.unknownInstruction op)

/-- Decoding a word by the procedure of R94: the family first, then what the family selects on. The last arm is
family F: a family is below 16. -/
def decodeWord (op : Word) : Except DecodeError Instr :=
  match family op with
  | 0x0 => decodeFamily0 op
  | 0x1 => .ok (.jp (fieldNNN op))
  | 0x2 => .ok (.call (fieldNNN op))
  | 0x3 => .ok (.seImm (fieldX op) (fieldNN op))
  | 0x4 => .ok (.sneImm (fieldX op) (fieldNN op))
  | 0x5 => .ok (.seReg (fieldX op) (fieldY op) (fieldN op))
  | 0x6 => .ok (.ldImm (fieldX op) (fieldNN op))
  | 0x7 => .ok (.addImm (fieldX op) (fieldNN op))
  | 0x8 => decodeFamily8 op
  | 0x9 => .ok (.sneReg (fieldX op) (fieldY op) (fieldN op))
  | 0xA => .ok (.ldI (fieldNNN op))
  | 0xB => .ok (.jpV0 (fieldNNN op))
  | 0xC => .ok (.rnd (fieldX op) (fieldNN op))
  | 0xD => .ok (.drw (fieldX op) (fieldY op) (fieldN op))
  | 0xE => decodeFamilyE op
  | _ => decodeFamilyF op

/-- The opcode of two fetched bytes, the one at the lower address first: `hi * 256 + lo` (R62, R123). -/
def joinBytes (hi lo : Byte) : Word := BitVec.ofNat 16 (hi.toNat * 256 + lo.toNat)

/-- The byte at the lower address of a word: `op[15:8]` (R62). -/
def highByte (op : Word) : Byte := slice op 8 8

/-- The byte at the higher address of a word: `op[7:0]` (R62). -/
def lowByte (op : Word) : Byte := slice op 0 8

/-- Decoding bytes: the instruction in the first two, and the bytes after it (R90, R94). -/
def decode : List Byte → Except DecodeError (Instr × List Byte)
  | hi :: lo :: rest =>
    match decodeWord (joinBytes hi lo) with
    | .ok i => .ok (i, rest)
    | .error e => .error e
  | _ => .error .tooShort

/-- The host's entry: the instruction whose one 16-bit word has the bits `w`, bits from `nbits` up being 0. -/
def decodeTableWord (nbits w : Nat) : Option Instr :=
  let op := BitVec.ofNat 16 (w % 2 ^ nbits)
  match decode [highByte op, lowByte op] with
  | .ok (i, _) => some i
  | .error _ => none

/-- The word shapes of R92, from the most significant digit down. -/
def shapeA (f : Nat) (nnn : Addr) : Word := BitVec.ofNat 16 (f * 4096 + nnn.toNat)
def shapeRI (f : Nat) (x : Reg) (nn : Byte) : Word := BitVec.ofNat 16 (f * 4096 + x.val * 256 + nn.toNat)
def shapeRRN (f : Nat) (x y : Reg) (n : Nibble) : Word :=
  BitVec.ofNat 16 (f * 4096 + x.val * 256 + y.val * 16 + n.toNat)

/-- The word of an instruction: the pattern of its row of R95 with the operands in their digits. -/
def encode : Instr → Word
  | .cls => 0x00E0
  | .ret => 0x00EE
  | .sys nnn => shapeA 0x0 nnn
  | .jp nnn => shapeA 0x1 nnn
  | .call nnn => shapeA 0x2 nnn
  | .seImm x nn => shapeRI 0x3 x nn
  | .sneImm x nn => shapeRI 0x4 x nn
  | .seReg x y n => shapeRRN 0x5 x y n
  | .ldImm x nn => shapeRI 0x6 x nn
  | .addImm x nn => shapeRI 0x7 x nn
  | .ldReg x y => shapeRRN 0x8 x y 0x0
  | .orReg x y => shapeRRN 0x8 x y 0x1
  | .andReg x y => shapeRRN 0x8 x y 0x2
  | .xorReg x y => shapeRRN 0x8 x y 0x3
  | .addReg x y => shapeRRN 0x8 x y 0x4
  | .subReg x y => shapeRRN 0x8 x y 0x5
  | .shrReg x y => shapeRRN 0x8 x y 0x6
  | .subnReg x y => shapeRRN 0x8 x y 0x7
  | .shlReg x y => shapeRRN 0x8 x y 0xE
  | .sneReg x y n => shapeRRN 0x9 x y n
  | .ldI nnn => shapeA 0xA nnn
  | .jpV0 nnn => shapeA 0xB nnn
  | .rnd x nn => shapeRI 0xC x nn
  | .drw x y n => shapeRRN 0xD x y n
  | .skp x => shapeRI 0xE x 0x9E
  | .sknp x => shapeRI 0xE x 0xA1
  | .ldVxDt x => shapeRI 0xF x 0x07
  | .ldVxK x => shapeRI 0xF x 0x0A
  | .ldDtVx x => shapeRI 0xF x 0x15
  | .ldStVx x => shapeRI 0xF x 0x18
  | .addI x => shapeRI 0xF x 0x1E
  | .ldF x => shapeRI 0xF x 0x29
  | .ldB x => shapeRI 0xF x 0x33
  | .storeRegs x => shapeRI 0xF x 0x55
  | .loadRegs x => shapeRI 0xF x 0x65

/-- The two bytes of an instruction as memory holds them, the high byte at the lower address (R62). -/
def encodeBytes (i : Instr) : List Byte := [highByte (encode i), lowByte (encode i)]

end Sys2Proof
end

