-- ==== Sys2Proof/Config.lean ====
section
/-! DEFINITION. The spec's open parameters (00_scope.md R7): values the document does not give. `font` and `draw` have
no body, so no proof can see what they are, and a theorem holds for every font and every sequence of draws. -/

namespace Sys2Proof.Config

/-- `FONT`: the 80 bytes every reset copies to `memory[0..79]` (R7, R24). An open parameter (log 1). -/
opaque font : Fin 80 → Byte

/-- `rnd`: the byte the `k`-th execution of CXNN draws (R7, R171). A free value (log 3). -/
opaque draw : Nat → Byte

/-- The customary font table that R24 gives as the DEFAULT of `FONT`, marked there as general knowledge. The machine
does not use it: it is the right side of the named hypothesis R24 asks for. -/
def defaultFont : List Byte :=
  [0xF0, 0x90, 0x90, 0x90, 0xF0] ++ [0x20, 0x60, 0x20, 0x20, 0x70] ++
  [0xF0, 0x10, 0xF0, 0x80, 0xF0] ++ [0xF0, 0x10, 0xF0, 0x10, 0xF0] ++
  [0x90, 0x90, 0xF0, 0x10, 0x10] ++ [0xF0, 0x80, 0xF0, 0x10, 0xF0] ++
  [0xF0, 0x80, 0xF0, 0x90, 0xF0] ++ [0xF0, 0x10, 0x20, 0x40, 0x40] ++
  [0xF0, 0x90, 0xF0, 0x90, 0xF0] ++ [0xF0, 0x90, 0xF0, 0x10, 0xF0] ++
  [0xF0, 0x90, 0xF0, 0x90, 0x90] ++ [0xE0, 0x90, 0xE0, 0x90, 0xE0] ++
  [0xF0, 0x80, 0x80, 0x80, 0xF0] ++ [0xE0, 0x90, 0x90, 0x90, 0xE0] ++
  [0xF0, 0x80, 0xF0, 0x80, 0xF0] ++ [0xF0, 0x80, 0xF0, 0x80, 0x80]

/-- "`FONT` is the default table": the hypothesis under which a fact about glyph bytes may be stated (R24, D5). -/
def FontIsDefault : Prop := List.ofFn font = defaultFont

end Sys2Proof.Config
end

