-- ==== Sys2Proof/Machine/State.lean ====
section
/-! DEFINITION. The whole state of the core (10_state.md R20) as plain data, the outcomes of a step, and the state after
reset (70_reset_and_hazards.md R300). -/

namespace Sys2Proof.Machine

/-- The values of `halt_code` (R33, R252). -/
inductive HaltCode where
  /-- Not halted. -/
  | none
  /-- Recorded by STEP when the fetched word is no instruction (R125). -/
  | unknownInstruction
  /-- Recorded by 2NNN when `sp = 16` (R144). -/
  | stackOverflow
  /-- Recorded by 00EE when `sp = 0` (R141). -/
  | stackUnderflow
deriving DecidableEq, Repr

/-- The values of the `fault` latch, which the spec adds (R34). -/
inductive FaultCode where
  /-- Not faulted. -/
  | none
  /-- Recorded by STEP when `pc` is outside the fetch window (R258). -/
  | pcRange
  /-- Recorded by DXYN, FX33, FX55, FX65 when a data address exceeds 0xFFF (R259). -/
  | memRange
  /-- Recorded by FX33, FX55 when a store would fall below 0x200 (R260). -/
  | writeProtect
  /-- Recorded by EX9E, EXA1 when the key index exceeds 15 (R261). -/
  | keyRange
deriving DecidableEq, Repr

/-- Main memory as a canonical list of cells: what a cell that is not listed holds is `unlisted` of Machine/Ops.lean. -/
abbrev Memory := List Host.Cell

/-- The state of the core: the fourteen elements of R20 and, last, the model's own counter of draws. -/
structure State where
  /-- `memory` (R23). -/
  mem : Memory
  /-- `display`: 64 x 32 pixels, eight to a byte, row-major, most significant bit leftmost (R25). -/
  display : Vector Byte 256
  /-- `stack`: the return addresses (R26). -/
  stack : Vector Word 16
  /-- `sp`: how many entries are pushed, 0 to 16 (R27). -/
  sp : Fin 17
  /-- `V[0]` to `V[0xF]` (R21, R22). -/
  v : Vector Byte 16
  /-- `I`, the index register (R28). -/
  i : Word
  /-- `pc` (R29). -/
  pc : Word
  /-- `DT`, `timer_delay` (R30). -/
  dt : Byte
  /-- `ST`, `timer_sound` (R30). -/
  st : Byte
  /-- `keys`: bit `k` set while key `k` is held (R31). -/
  keys : Word
  /-- `vblank` (R32). -/
  vblank : Bool
  /-- `halt_code` (R33). -/
  haltCode : HaltCode
  /-- `fault` (R34). -/
  fault : FaultCode
  /-- `ir`, the last fetched opcode (R35). -/
  ir : Word
  /-- The model's own: how many draws CXNN has taken, so that each takes a fresh free value (R171, log 3). -/
  draws : Nat
deriving DecidableEq, Repr

/-- Reasons for which the MODEL's step would stop. There is none: STEP "always returns" (R120), and the spec's halts and
faults are next states that set a latch (R251, R257, log 4). -/
inductive Fault where
deriving DecidableEq, Repr

/-- Instructions the model gives no meaning. -/
inductive Refusal where
  /-- Raised by an arm of `exec` whose instruction has no meaning yet; safe. No arm raises it: all 35 have one. -/
  | notModelled (mnemonic : String)
deriving DecidableEq, Repr

/-- What one step or one instruction answers. -/
abbrev Result := Host.Outcome State Fault Refusal

/-- The state right after RESET (R300, R301): every element at the value R20 gives it, memory with nothing listed, so
that it reads as the font and zeros; `draws` is the model's own (log 3). -/
def State.reset : State where
  mem := []
  display := Vector.replicate 256 0
  stack := Vector.replicate 16 0
  sp := 0
  v := Vector.replicate 16 0
  i := 0
  pc := 0x200
  dt := 0
  st := 0
  keys := 0
  vblank := false
  haltCode := .none
  fault := .none
  ir := 0
  draws := 0

end Sys2Proof.Machine
end

