-- ==== Sys2Proof/Machine/Ops.lean ====
section
/-! DEFINITION. The named operations over registers, memory, the stack, the display and the program counter; recording a
halt or a fault; the fetch (00_scope.md R11, 20_memory.md, 40_step_dispatch.md, 60_exceptions.md). -/

namespace Sys2Proof.Machine

/-! ### Registers (R21, R28 to R32) -/

def State.reg (s : State) (x : Reg) : Byte := s.v[x]

def State.setReg (s : State) (x : Reg) (b : Byte) : State := { s with v := s.v.set x b }

def State.setRegs (s : State) (v : Vector Byte 16) : State := { s with v := v }

def State.setI (s : State) (a : Word) : State := { s with i := a }

def State.setPc (s : State) (a : Word) : State := { s with pc := a }

def State.setDt (s : State) (b : Byte) : State := { s with dt := b }

def State.setSt (s : State) (b : Byte) : State := { s with st := b }

def State.setKeys (s : State) (k : Word) : State := { s with keys := k }

def State.setVblank (s : State) (b : Bool) : State := { s with vblank := b }

def State.setMem (s : State) (m : Memory) : State := { s with mem := m }

def State.setDisplay (s : State) (d : Vector Byte 256) : State := { s with display := d }

def State.setStack (s : State) (k : Vector Word 16) (n : Fin 17) : State := { s with stack := k, sp := n }

def State.setHalt (s : State) (c : HaltCode) : State := { s with haltCode := c }

def State.setFault (s : State) (c : FaultCode) : State := { s with fault := c }

def State.setIr (s : State) (op : Word) : State := { s with ir := op }

def State.setDraws (s : State) (n : Nat) : State := { s with draws := n }

/-! ### Memory (R60, R61, R65) -/

/-- What a byte holds that nothing has written since reset: the font below 0x050, zero above it (R61, R300). -/
def unlisted (a : Nat) : Byte := if h : a < 80 then Config.font ⟨a, h⟩ else 0

/-- The byte at `a`. -/
def Memory.read : Memory → Nat → Byte
  | [], a => unlisted a
  | (k, b) :: rest, a => if a = k then b else Memory.read rest a

/-- List the byte `b` at `a`, at its place in the order of addresses. -/
def Memory.insert : Memory → Nat → Byte → Memory
  | [], a, b => [(a, b)]
  | (k, c) :: rest, a, b =>
    if a < k then (a, b) :: (k, c) :: rest
    else if a = k then (a, b) :: rest
    else (k, c) :: Memory.insert rest a b

/-- Store `b` at `a`, keeping the canonical form: a byte that is what an unlisted address reads as is not listed. -/
def Memory.write (m : Memory) (a : Nat) (b : Byte) : Memory :=
  if b = unlisted a then m.filter (fun c => c.1 != a) else Memory.insert m a b

/-- Store bytes at ascending addresses from `a` (R63). -/
def Memory.writeBytes : Memory → Nat → List Byte → Memory
  | m, _, [] => m
  | m, a, b :: bs => Memory.writeBytes (Memory.write m a b) (a + 1) bs

/-- The canonical form: addresses strictly rising and inside the address space, no cell equal to what its address reads
as when it is not listed. -/
abbrev Memory.wf (m : Memory) : Prop :=
  m.Pairwise (fun c d => c.1 < d.1) ∧ ∀ c ∈ m, c.1 < 0x1000 ∧ c.2 ≠ unlisted c.1

/-- The byte of main memory at `a` (R11). -/
def State.read (s : State) (a : Nat) : Byte := Memory.read s.mem a

/-- Store bytes at ascending addresses from `a`, unchecked: a store's checks come first (R72). -/
def State.store (s : State) (a : Nat) (bs : List Byte) : State := s.setMem (Memory.writeBytes s.mem a bs)

/-! ### Halts and faults: the machine's exceptions (R251, R257, R265)

Nothing is saved and control goes nowhere: the latch is written and the STEP ends. There is no return from either; only
RESET and a successful LOAD clear the latches (R266). -/

/-- `raise Halt(c)` (R251). -/
def raiseHalt (c : HaltCode) (s : State) : Result := .next (s.setHalt c)

/-- `raise Fault(c)` (R257). -/
def raiseFault (c : FaultCode) (s : State) : Result := .next (s.setFault c)

/-- Go on unless a check has found a cause of fault: checks precede every write (R12, R72). -/
def unlessFault (check : Option FaultCode) (s : State) (go : Result) : Result :=
  match check with
  | some c => raiseFault c s
  | none => go

/-- A halt or a fault is recorded: STEP is inert (R121). -/
def State.stopped (s : State) : Bool := s.haltCode != .none || s.fault != .none

/-! ### The program counter (R11, R29, R124, R126, R150) -/

/-- `skip`, if the condition holds. -/
def skipIf (c : Bool) (s : State) : Result := .next (if c then s.setPc (s.pc + 2) else s)

/-- `retry`: rewind `pc` to the instruction itself (R126). -/
def retry (s : State) : Result := .next (s.setPc (s.pc - 2))

/-- A control transfer: the target is stored as it is, unchecked (R150). -/
def jump (target : Word) (s : State) : Result := .next (s.setPc target)

/-! ### The return stack (R26, R27) -/

/-- Push `pc`, or nothing when sixteen entries are pushed. -/
def State.push (s : State) : Option State :=
  if h : s.sp.val < 16 then
    some (s.setStack (s.stack.set s.sp.val s.pc) ⟨s.sp.val + 1, Nat.succ_lt_succ h⟩)
  else none

/-- Pop: the popped entry and the state with one entry fewer, the slot keeping its value; nothing when none is pushed. -/
def State.pop (s : State) : Option (Word × State) :=
  if h : s.sp.val = 0 then none
  else
    some (s.stack[s.sp.val - 1]'(by have := s.sp.isLt; omega),
      s.setStack s.stack ⟨s.sp.val - 1, by have := s.sp.isLt; omega⟩)

/-! ### Pixels (R25, R190) -/

/-- `idx(px,py)` of R190. -/
def pixelIndex (px : Fin 64) (py : Fin 32) : Fin 256 := ⟨py.val * 8 + px.val / 8, by omega⟩

/-- `bit(px)` of R190. -/
def pixelBit (px : Fin 64) : Nat := 7 - px.val % 8

/-- `Pixel(px,py)` of R190. -/
def pixel (d : Vector Byte 256) (px : Fin 64) (py : Fin 32) : Bool := d[pixelIndex px py].getLsbD (pixelBit px)

/-- A byte with bit `k` replaced. -/
def withBit (b : Byte) (k : Nat) (v : Bool) : Byte := if v then b ||| (1#8 <<< k) else b &&& ~~~(1#8 <<< k)

/-- `SetPixel(px,py,v)` of R190. -/
def setPixel (d : Vector Byte 256) (px : Fin 64) (py : Fin 32) (v : Bool) : Vector Byte 256 :=
  d.set (pixelIndex px py) (withBit d[pixelIndex px py] (pixelBit px) v)

/-! ### The fetch (R122 to R124) -/

/-- `pc` lies in the fetch window 0x200 to 0xFFE (R122). -/
def State.canFetch (s : State) : Bool := 0x200 ≤ s.pc.toNat && s.pc.toNat ≤ 0xFFE

/-- The two bytes of the instruction at `pc`, the one at the lower address first (R123). -/
def State.fetchBytes (s : State) : List Byte := [s.read s.pc.toNat, s.read (s.pc.toNat + 1)]

/-- The opcode at `pc` (R62, R123). -/
def State.fetchWord (s : State) : Word := joinBytes (s.read s.pc.toNat) (s.read (s.pc.toNat + 1))

/-- The state an instruction executes in: the opcode latched in `ir`, `pc` past it (R123, R124). -/
def State.fetched (s : State) : State := (s.setIr s.fetchWord).setPc (s.pc + 2)

end Sys2Proof.Machine
end

