-- ==== Sys2Proof/Machine/Flags.lean ====
section
/-! DEFINITION. The flag register `V[0xF]` and every value an instruction writes to it (10_state.md R22,
42_alu.md R159). -/

namespace Sys2Proof.Machine

/-- The register that doubles as the flag (R22). -/
abbrev flagReg : Reg := 15

/-- A flag is the whole byte 0 or 1 (R22). -/
def flagByte (b : Bool) : Byte := if b then 1 else 0

/-- Write the flag register (R22). -/
def State.setFlag (s : State) (b : Bool) : State := s.setReg flagReg (flagByte b)

/-- Write a result and then the flag, so that the flag replaces the result when `x = 0xF` (R12). -/
def State.setRegFlag (s : State) (x : Reg) (result : Byte) (flag : Bool) : State := (s.setReg x result).setFlag flag

/-- Carry out of 8XY4: the 9-bit sum exceeds 255 (R166). -/
def carryOut (a b : Byte) : Bool := 255 < a.toNat + b.toNat

/-- Not-borrow of `a - b`, 8XY5 and 8XY7: the minuend is not below the subtrahend (R167, R169). -/
def noBorrow (a b : Byte) : Bool := b.toNat ≤ a.toNat

/-- The bit 8XY6 shifts out (R168). -/
def shiftedOutRight (b : Byte) : Bool := b.getLsbD 0

/-- The bit 8XYE shifts out (R170). -/
def shiftedOutLeft (b : Byte) : Bool := b.getLsbD 7

end Sys2Proof.Machine
end

