-- ==== Sys2Proof/Machine/Alu.lean ====
section
/-! DEFINITION. The arithmetic-logic instructions (42_alu.md): operands first, then `V[x]`, then `V[0xF]` (R12). -/

namespace Sys2Proof.Machine

/-- 6XNN (R160). -/
def execLdImm (x : Reg) (nn : Byte) (s : State) : Result := .next (s.setReg x nn)

/-- 7XNN: no flag (R161). -/
def execAddImm (x : Reg) (nn : Byte) (s : State) : Result := .next (s.setReg x (s.reg x + nn))

/-- 8XY0 (R162). -/
def execLdReg (x y : Reg) (s : State) : Result := .next (s.setReg x (s.reg y))

/-- 8XY1: the flag is cleared (R163). -/
def execOrReg (x y : Reg) (s : State) : Result := .next (s.setRegFlag x (s.reg x ||| s.reg y) false)

/-- 8XY2: the flag is cleared (R164). -/
def execAndReg (x y : Reg) (s : State) : Result := .next (s.setRegFlag x (s.reg x &&& s.reg y) false)

/-- 8XY3: the flag is cleared (R165). -/
def execXorReg (x y : Reg) (s : State) : Result := .next (s.setRegFlag x (s.reg x ^^^ s.reg y) false)

/-- 8XY4 (R166). -/
def execAddReg (x y : Reg) (s : State) : Result :=
  .next (s.setRegFlag x (s.reg x + s.reg y) (carryOut (s.reg x) (s.reg y)))

/-- 8XY5: `V[x] - V[y]` (R167). -/
def execSubReg (x y : Reg) (s : State) : Result :=
  .next (s.setRegFlag x (s.reg x - s.reg y) (noBorrow (s.reg x) (s.reg y)))

/-- 8XY6: the source is `V[y]` (R168). -/
def execShrReg (x y : Reg) (s : State) : Result :=
  .next (s.setRegFlag x (s.reg y >>> 1) (shiftedOutRight (s.reg y)))

/-- 8XY7: `V[y] - V[x]` (R169). -/
def execSubnReg (x y : Reg) (s : State) : Result :=
  .next (s.setRegFlag x (s.reg y - s.reg x) (noBorrow (s.reg y) (s.reg x)))

/-- 8XYE: the source is `V[y]` (R170). -/
def execShlReg (x y : Reg) (s : State) : Result :=
  .next (s.setRegFlag x (s.reg y <<< 1) (shiftedOutLeft (s.reg y)))

/-- CXNN with the draw `rnd` (R171). -/
def State.withRandom (s : State) (x : Reg) (nn rnd : Byte) : State := s.setReg x (rnd &&& nn)

/-- CXNN: takes the next draw, a free value (R171, log 3). -/
def execRnd (x : Reg) (nn : Byte) (s : State) : Result :=
  .next ((s.withRandom x nn (Config.draw s.draws)).setDraws (s.draws + 1))

end Sys2Proof.Machine
end

