-- ==== Sys2Proof/Machine/Operands.lean ====
section
/-! DEFINITION. The operand forms: immediates (30_encoding.md R93), effective addresses and their range checks
(20_memory.md R67 to R72), the keys. -/

namespace Sys2Proof.Machine

/-- `zext_16` of a byte (R11). -/
def zext (b : Byte) : Word := b.setWidth 16

/-- The 12-bit immediate as a 16-bit address, bits 15:12 zero (R93). -/
def address (nnn : Addr) : Word := nnn.setWidth 16

/-- The effective address `I + k`, an unbounded natural (R67, R69). -/
def State.effAddr (s : State) (k : Nat) : Nat := s.i.toNat + k

/-- The effective address of FX29, `V[x] * 5` (R67, R225). -/
def State.fontAddr (s : State) (x : Reg) : Nat := (s.reg x).toNat * 5

/-- MEM_RANGE for a data access to `I .. I + count - 1`: the last address exceeds 0xFFF (R70). -/
def State.checkRange (s : State) (count : Nat) : Option FaultCode :=
  if 1 ≤ count ∧ 0xFFF < s.effAddr (count - 1) then some .memRange else none

/-- The checks of a store to `I .. I + count - 1`: MEM_RANGE first, then WRITE_PROTECT (R71, R72). -/
def State.checkStore (s : State) (count : Nat) : Option FaultCode :=
  match s.checkRange count with
  | some c => some c
  | none => if s.effAddr 0 < 0x200 then some .writeProtect else none

/-- KEY_RANGE: `keys` has bits 0 to 15 only (R210). -/
def State.checkKey (s : State) (x : Reg) : Option FaultCode :=
  if 15 < (s.reg x).toNat then some .keyRange else none

/-- Whether the key numbered `V[x]` is held (R31, R210). -/
def State.keyHeld (s : State) (x : Reg) : Bool := s.keys.getLsbD (s.reg x).toNat

/-- The least held key (R212); asked only when some key is. -/
def leastKey (keys : Word) : Byte :=
  BitVec.ofNat 8 (((List.range 16).find? (fun k => keys.getLsbD k)).getD 0)

/-- The unpacked decimal digits of a byte: hundreds, tens, ones (R226). -/
def bcdDigits (b : Byte) : List Byte :=
  [BitVec.ofNat 8 (b.toNat / 100), BitVec.ofNat 8 (b.toNat / 10 % 10), BitVec.ofNat 8 (b.toNat % 10)]

/-- `V[0]` to `V[x]`, in order (R227). -/
def State.regsUpTo (s : State) (x : Reg) : List Byte := s.v.toList.take (x.val + 1)

/-- The registers after `V[0]` to `V[x]` are loaded from `I .. I + x` (R228). -/
def State.loadedRegs (s : State) (x : Reg) : Vector Byte 16 :=
  Vector.ofFn fun k : Fin 16 => if k.val ≤ x.val then s.read (s.effAddr k.val) else s.reg k

/-- `I + x + 1`, modulo 65536 (R227, R228). -/
def State.advancedI (s : State) (x : Reg) : Word := BitVec.ofNat 16 (s.effAddr (x.val + 1))

/-- The `n` sprite rows at `I`, row 0 first (R191). -/
def State.spriteRows (s : State) (n : Nat) : List Byte := (List.range n).map fun row => s.read (s.effAddr row)

end Sys2Proof.Machine
end

