-- ==== Sys2Proof/Machine/ControlFlow.lean ====
section
/-! DEFINITION. The control-flow instructions (41_control_flow.md). In every meaning `pc` is already past the
instruction (R124). -/

namespace Sys2Proof.Machine

/-- 00E0 (R140). -/
def execCls (s : State) : Result := .next (s.setDisplay (Vector.replicate 256 0))

/-- 00EE (R141). -/
def execRet (s : State) : Result :=
  match s.pop with
  | none => raiseHalt .stackUnderflow s
  | some (target, t) => jump target t

/-- 0NNN: no operation (R142). -/
def execSys (_nnn : Addr) (s : State) : Result := .next s

/-- 1NNN (R143). -/
def execJp (nnn : Addr) (s : State) : Result := jump (address nnn) s

/-- 2NNN (R144). -/
def execCall (nnn : Addr) (s : State) : Result :=
  match s.push with
  | none => raiseHalt .stackOverflow s
  | some t => jump (address nnn) t

/-- 3XNN (R145). -/
def execSeImm (x : Reg) (nn : Byte) (s : State) : Result := skipIf (s.reg x == nn) s

/-- 4XNN (R146). -/
def execSneImm (x : Reg) (nn : Byte) (s : State) : Result := skipIf (s.reg x != nn) s

/-- 5XYn, the low nibble ignored (R98, R147). -/
def execSeReg (x y : Reg) (_n : Nibble) (s : State) : Result := skipIf (s.reg x == s.reg y) s

/-- 9XYn, the low nibble ignored (R98, R148). -/
def execSneReg (x y : Reg) (_n : Nibble) (s : State) : Result := skipIf (s.reg x != s.reg y) s

/-- BNNN (R149). -/
def execJpV0 (nnn : Addr) (s : State) : Result := jump (address nnn + zext (s.reg 0)) s

end Sys2Proof.Machine
end

