-- ==== Sys2Proof/Machine/Graphics.lean ====
section
/-! DEFINITION. The draw instruction and the sprite engine (43_graphics.md). -/

namespace Sys2Proof.Machine

/-- The display while a sprite is drawn, and whether a lit pixel has been erased so far (`coll` of R194). -/
structure Canvas where
  bits : Vector Byte 256
  coll : Bool
deriving DecidableEq, Repr

/-- Draw one sprite bit at a column and row that may lie beyond the screen, where it is dropped (R194, R196). -/
def drawBit (c : Canvas) (px py : Nat) (s : Bool) : Canvas :=
  if h : px ≤ 63 ∧ py ≤ 31 then
    let x : Fin 64 := ⟨px, Nat.lt_succ_of_le h.1⟩
    let y : Fin 32 := ⟨py, Nat.lt_succ_of_le h.2⟩
    let old := pixel c.bits x y
    { bits := setPixel c.bits x y (old ^^ s), coll := c.coll || (old && s) }
  else c

/-- Draw the eight columns of one row byte, most significant bit leftmost (R191). -/
def drawRow (c : Canvas) (x0 y : Nat) (b : Byte) : Canvas :=
  (List.range 8).foldl (fun c col => drawBit c (x0 + col) y (b.getLsbD (7 - col))) c

/-- Draw the rows of a sprite, from row `y` down (R194). -/
def drawRows (c : Canvas) (x0 y : Nat) : List Byte → Canvas
  | [] => c
  | b :: bs => drawRows (drawRow c x0 y b) x0 (y + 1) bs

/-- What a proceeding DXYN draws: the origin wraps, the extent is clipped (R194, R196). -/
def State.drawn (s : State) (x y : Reg) (n : Nibble) : Canvas :=
  drawRows { bits := s.display, coll := false } ((s.reg x).toNat % 64) ((s.reg y).toNat % 32) (s.spriteRows n.toNat)

/-- DXYN: the gate, then the range check, then the draw, then the flag (R193, R194). -/
def execDrw (x y : Reg) (n : Nibble) (s : State) : Result :=
  if s.vblank then
    unlessFault (s.checkRange n.toNat) s
      (.next (((s.setVblank false).setDisplay (s.drawn x y n).bits).setFlag (s.drawn x y n).coll))
  else retry s

end Sys2Proof.Machine
end

