-- ==== Sys2Proof/Machine/Input.lean ====
section
/-! DEFINITION. The input instructions (44_input.md). -/

namespace Sys2Proof.Machine

/-- EX9E (R210). -/
def execSkp (x : Reg) (s : State) : Result := unlessFault (s.checkKey x) s (skipIf (s.keyHeld x) s)

/-- EXA1 (R211). -/
def execSknp (x : Reg) (s : State) : Result := unlessFault (s.checkKey x) s (skipIf (!s.keyHeld x) s)

/-- FX0A (R212). -/
def execLdVxK (x : Reg) (s : State) : Result :=
  if s.keys = 0 then retry s else .next (s.setReg x (leastKey s.keys))

end Sys2Proof.Machine
end

