-- ==== Sys2Proof/Machine/MemTimer.lean ====
section
/-! DEFINITION. The memory, index, timer and BCD instructions (45_memory_timer_bcd.md). -/

namespace Sys2Proof.Machine

/-- ANNN (R220). -/
def execLdI (nnn : Addr) (s : State) : Result := .next (s.setI (address nnn))

/-- FX07 (R221). -/
def execLdVxDt (x : Reg) (s : State) : Result := .next (s.setReg x s.dt)

/-- FX15 (R222). -/
def execLdDtVx (x : Reg) (s : State) : Result := .next (s.setDt (s.reg x))

/-- FX18 (R223). -/
def execLdStVx (x : Reg) (s : State) : Result := .next (s.setSt (s.reg x))

/-- FX1E: modulo 65536, no flag (R224). -/
def execAddI (x : Reg) (s : State) : Result := .next (s.setI (s.i + zext (s.reg x)))

/-- FX29: the font BYTE at `V[x] * 5`, not its address (R225). -/
def execLdF (x : Reg) (s : State) : Result := .next (s.setI (zext (s.read (s.fontAddr x))))

/-- FX33 (R226). -/
def execLdB (x : Reg) (s : State) : Result :=
  unlessFault (s.checkStore 3) s (.next (s.store (s.effAddr 0) (bcdDigits (s.reg x))))

/-- FX55 (R227). -/
def execStoreRegs (x : Reg) (s : State) : Result :=
  unlessFault (s.checkStore (x.val + 1)) s
    (.next ((s.store (s.effAddr 0) (s.regsUpTo x)).setI (s.advancedI x)))

/-- FX65 (R228). -/
def execLoadRegs (x : Reg) (s : State) : Result :=
  unlessFault (s.checkRange (x.val + 1)) s (.next ((s.setRegs (s.loadedRegs x)).setI (s.advancedI x)))

end Sys2Proof.Machine
end

