-- ==== Sys2Proof/Machine/Step.lean ====
section
/-! DEFINITION. The STEP event (40_step_dispatch.md R120), and the host's way to place an instruction where STEP
fetches. -/

namespace Sys2Proof.Machine

/-- STEP: inert when stopped (R121), PC_RANGE outside the fetch window (R122), else fetch, advance, and execute or halt
(R123 to R125). -/
def step (s : State) : Host.Outcome State Fault Refusal :=
  if s.stopped then .next s
  else if s.canFetch then
    match decode s.fetchBytes with
    | .ok (i, _) => exec i s.fetched
    | .error _ => raiseHalt .unknownInstruction s.fetched
  else raiseFault .pcRange s

/-- `s` with the instruction word `w` (its bits from `nbits` up being 0) stored where STEP fetches next, high byte first
(R62). The fetch needs a core that is neither halted nor faulted and a `pc` in the window: where `s` lacks that, it is
given, as a LOAD gives it (R303, log 10). -/
def State.withFetchWord (s : State) (nbits w : Nat) : State :=
  let op : Word := BitVec.ofNat 16 (w % 2 ^ nbits)
  let ready := ((s.setHalt .none).setFault .none).setPc (if s.canFetch then s.pc else 0x200)
  ready.store ready.pc.toNat [highByte op, lowByte op]

end Sys2Proof.Machine
end

