-- ==== Sys2Proof/Machine/Events.lean ====
section
/-! DEFINITION. The host's events and observations (00_scope.md R9, 60_exceptions.md R280): everything the outside world
can do to the core besides STEP, and everything it can see. -/

namespace Sys2Proof.Machine

/-- RESET: every element of R20 at its reset value (R300). The model's own counter of draws goes on, so that a draw after
a reset is a fresh free value (log 3). -/
def resetEvent (s : State) : State := State.reset.setDraws s.draws

/-- The answer of LOAD (R303). -/
inductive LoadResult where
  /-- The program is in memory. -/
  | ok
  /-- The ROM has more than 3584 bytes; the state is unchanged (R253). -/
  | romTooLarge
deriving DecidableEq, Repr

/-- LOAD: refuse a ROM of more than 3584 bytes, else reset and copy it to 0x200 (R303). -/
def load (bytes : List Byte) (s : State) : LoadResult × State :=
  if 3584 < bytes.length then (.romTooLarge, s) else (.ok, (resetEvent s).store 0x200 bytes)

/-- One tick of a timer: it stops at 0 (R30, R271). -/
def countDown (b : Byte) : Byte := if b = 0 then 0 else b - 1

/-- TICK (R270). -/
def tick (s : State) : State := ((s.setDt (countDown s.dt)).setSt (countDown s.st)).setVblank true

/-- The bit of the key mask for the key argument `k`: its low four bits (R214). -/
def keyBit (k : Nat) : Word := 1#16 <<< (k % 16)

/-- KEY_DOWN (R214). -/
def keyDown (k : Nat) (s : State) : State := s.setKeys (s.keys ||| keyBit k)

/-- KEY_UP (R215). -/
def keyUp (k : Nat) (s : State) : State := s.setKeys (s.keys &&& ~~~ keyBit k)

/-- The state-changing events of R9. -/
inductive Event where
  | construct
  | reset
  | load (bytes : List Byte)
  | step
  | tick
  | keyDown (k : Nat)
  | keyUp (k : Nat)
deriving DecidableEq, Repr

/-- One event, applied atomically (R9, R65). CONSTRUCT leaves the reset state (R302). -/
def applyEvent (e : Event) (s : State) : Result :=
  match e with
  | .construct => .next (resetEvent s)
  | .reset => .next (resetEvent s)
  | .load bytes => .next (Machine.load bytes s).2
  | .step => Machine.step s
  | .tick => .next (Machine.tick s)
  | .keyDown k => .next (Machine.keyDown k s)
  | .keyUp k => .next (Machine.keyUp k s)

/-- Events in the order the host issues them (R9). -/
def applyEvents : List Event → State → Result
  | [], s => .next s
  | e :: es, s =>
    match applyEvent e s with
    | .next t => applyEvents es t
    | .fault r => .fault r
    | .refused r => .refused r

/-! ### Observations, which change no state -/

/-- `get_pixel(x, y)` (R192). -/
def getPixel (x y : Nat) (s : State) : Bool :=
  pixel s.display ⟨x % 64, Nat.mod_lt _ (by decide)⟩ ⟨y % 32, Nat.mod_lt _ (by decide)⟩

/-- The spec's numbers of the halt codes (R33). -/
def HaltCode.number : HaltCode → Nat
  | .none => 0
  | .unknownInstruction => 1
  | .stackOverflow => 2
  | .stackUnderflow => 3

/-- The spec's numbers of the fault codes (R34). -/
def FaultCode.number : FaultCode → Nat
  | .none => 0
  | .pcRange => 1
  | .memRange => 2
  | .writeProtect => 3
  | .keyRange => 4

/-- `halt_code()` (R250). -/
def observeHaltCode (s : State) : HaltCode := s.haltCode

/-- `fault()` (R256). -/
def observeFault (s : State) : FaultCode := s.fault

/-- `current_opcode()` (R36). -/
def currentOpcode (s : State) : Word := s.ir

/-- `timer_sound()` (R274). -/
def timerSound (s : State) : Byte := s.st

end Sys2Proof.Machine
end

