-- ==== Sys2Proof/Safety.lean ====
section
/-! DEFINITION. The terms in which claims speak: a core that runs, the invariant of a run, what an instruction may write
(10_state.md R38), and the pixels a sprite covers (43_graphics.md R194). -/

namespace Sys2Proof

open Sys2Proof.Machine

/-- Neither halted nor faulted: STEP is not inert (R16, R121). -/
abbrev Running (s : State) : Prop := s.haltCode = .none ∧ s.fault = .none

/-- `pc` is where an instruction may be fetched (R122). -/
abbrev InWindow (s : State) : Prop := 0x200 ≤ s.pc.toNat ∧ s.pc.toNat ≤ 0xFFE

/-- The invariant of a run: memory is in canonical form; nothing below 0x200 was ever stored to (R23); a halt and a fault
are never both recorded (R264); every live stack entry is the address after some CALL in the window (R141); `pc` is at
most what BNNN can produce (R29). -/
abbrev RunInv (s : State) : Prop :=
  Memory.wf s.mem ∧ (∀ c ∈ s.mem, 0x200 ≤ c.1) ∧
  (s.haltCode = .none ∨ s.fault = .none) ∧
  (∀ k : Fin 16, k.val < s.sp.val → 0x202 ≤ s.stack[k].toNat ∧ s.stack[k].toNat ≤ 0x1000) ∧
  s.pc.toNat ≤ 0x10FE

/-- One piece of the state. -/
inductive Elem where
  | memByte (a : Nat)
  | displayByte (k : Fin 256)
  | stackSlot (k : Fin 16)
  | sp
  | reg (x : Reg)
  | i
  | pc
  | dt
  | st
  | keys
  | vblank
  | haltCode
  | fault
  | ir
  | draws
deriving DecidableEq, Repr

/-- The piece holds the same in both states; a byte of memory through the read of one byte. -/
def Elem.same (s t : State) : Elem → Prop
  | .memByte a => t.read a = s.read a
  | .displayByte k => t.display[k] = s.display[k]
  | .stackSlot k => t.stack[k] = s.stack[k]
  | .sp => t.sp = s.sp
  | .reg x => t.v[x] = s.v[x]
  | .i => t.i = s.i
  | .pc => t.pc = s.pc
  | .dt => t.dt = s.dt
  | .st => t.st = s.st
  | .keys => t.keys = s.keys
  | .vblank => t.vblank = s.vblank
  | .haltCode => t.haltCode = s.haltCode
  | .fault => t.fault = s.fault
  | .ir => t.ir = s.ir
  | .draws => t.draws = s.draws

/-- Every piece of the state but those in `w` is unchanged. -/
def Frame (s t : State) (w : Elem → Prop) : Prop := ∀ e, ¬ w e → e.same s t

/-- What an instruction executed in state `s` may write: the write columns of R38, the latch its rule may raise, and the
model's counter for CXNN. The stored bytes are at the addresses the meaning stores to. -/
def mayWrite (s : State) : Instr → Elem → Prop
  | .cls => fun e => ∃ k, e = .displayByte k
  | .ret => fun e => e = .sp ∨ e = .pc ∨ e = .haltCode
  | .sys _ => fun _ => False
  | .jp _ | .jpV0 _ => fun e => e = .pc
  | .call _ => fun e => (∃ k, e = .stackSlot k ∧ k.val = s.sp.val) ∨ e = .sp ∨ e = .pc ∨ e = .haltCode
  | .seImm _ _ | .sneImm _ _ | .seReg _ _ _ | .sneReg _ _ _ => fun e => e = .pc
  | .ldImm x _ | .addImm x _ | .ldReg x _ | .ldVxDt x => fun e => e = .reg x
  | .orReg x _ | .andReg x _ | .xorReg x _ | .addReg x _ | .subReg x _ | .shrReg x _ | .subnReg x _ | .shlReg x _ =>
    fun e => e = .reg x ∨ e = .reg 15
  | .ldI _ | .addI _ | .ldF _ => fun e => e = .i
  | .rnd x _ => fun e => e = .reg x ∨ e = .draws
  | .drw _ _ _ => fun e => (∃ k, e = .displayByte k) ∨ e = .reg 15 ∨ e = .vblank ∨ e = .pc ∨ e = .fault
  | .skp _ | .sknp _ => fun e => e = .pc ∨ e = .fault
  | .ldVxK x => fun e => e = .reg x ∨ e = .pc
  | .ldDtVx _ => fun e => e = .dt
  | .ldStVx _ => fun e => e = .st
  | .ldB _ => fun e => (∃ k, k < 3 ∧ e = .memByte (s.effAddr k)) ∨ e = .fault
  | .storeRegs x => fun e => (∃ k, k ≤ x.val ∧ e = .memByte (s.effAddr k)) ∨ e = .i ∨ e = .fault
  | .loadRegs x => fun e => (∃ k : Reg, k ≤ x ∧ e = .reg k) ∨ e = .i ∨ e = .fault

/-- The words that decode to the instruction are exactly the one with this number. -/
def EncodedAs (i : Instr) (n : Nat) : Prop := ∀ w : Word, decodeWord w = .ok i ↔ w.toNat = n

/-- The sprite of `DXYN` has a 1 bit on the pixel: the pixel lies in the sprite's rows and columns, whose origin is taken
modulo the screen, and the bit of `memory[I + row]` for its column is set (R191, R194, R196). -/
def spriteBit (s : State) (x y : Reg) (n : Nibble) (px : Fin 64) (py : Fin 32) : Bool :=
  let x0 := s.v[x].toNat % 64
  let y0 := s.v[y].toNat % 32
  decide (x0 ≤ px.val ∧ px.val < x0 + 8 ∧ y0 ≤ py.val ∧ py.val < y0 + n.toNat) &&
    (s.read (s.i.toNat + (py.val - y0))).getLsbD (7 - (px.val - x0))

/-- Some pixel that is lit lies under a 1 bit of the sprite (R195). -/
def erases (s : State) (x y : Reg) (n : Nibble) : Prop :=
  ∃ px py, spriteBit s x y n px py = true ∧ pixel s.display px py = true

/-- The `n` sprite rows lie in memory (R70). -/
def SpriteInMemory (s : State) (n : Nibble) : Prop := n = 0 ∨ s.i.toNat + n.toNat ≤ 0x1000

end Sys2Proof
end

