-- ==== Sys2Proof/Certificates/Slice0/Obligations.lean ====
section
/-! DEFINITION. The statements for the provers, each formalising what the spec's rules say an instruction, an event or the
machine does. In a statement about `exec`, the state `s` is the one the fetch left, so `s.pc` is the address of the NEXT
instruction (40_step_dispatch.md R124). -/

open Sys2Proof Sys2Proof.Machine

/-! ### Encoding -/

/-- At least one word of each of the sixteen families, written out from the patterns of R95, decodes to the instruction it
stands for. That 0xA20C is LD I is the spec's decision D4 (log 8), that 0x01E0 is SYS is D9 (log 8), that 0x912F is SNE is D8
and that the model keeps its ignored nibble is log 11. The pairings are D6 (log 8): of families 3 and 4, and of 5 and 9, which
skips on equality (R145 to R148), and which sub-opcode of 8, E and F, of those D6 lists, is which instruction. -/
def Obligations.SampleWordsDecode : Prop :=
  decodeWord 0x00E0 = .ok .cls ∧ decodeWord 0x00EE = .ok .ret ∧ decodeWord 0x01E0 = .ok (.sys 0x1E0) ∧
  decodeWord 0x1ABC = .ok (.jp 0xABC) ∧ decodeWord 0x220E = .ok (.call 0x20E) ∧
  decodeWord 0x3105 = .ok (.seImm 1 0x05) ∧ decodeWord 0x4A7B = .ok (.sneImm 0xA 0x7B) ∧
  decodeWord 0x6F12 = .ok (.ldImm 0xF 0x12) ∧ decodeWord 0x5340 = .ok (.seReg 3 4 0) ∧
  decodeWord 0x71FF = .ok (.addImm 1 0xFF) ∧ decodeWord 0x8125 = .ok (.subReg 1 2) ∧
  decodeWord 0x812E = .ok (.shlReg 1 2) ∧ decodeWord 0x912F = .ok (.sneReg 1 2 0xF) ∧
  decodeWord 0xA20C = .ok (.ldI 0x20C) ∧ decodeWord 0xB2FF = .ok (.jpV0 0x2FF) ∧
  decodeWord 0xC10F = .ok (.rnd 1 0x0F) ∧ decodeWord 0xD013 = .ok (.drw 0 1 3) ∧
  decodeWord 0xE09E = .ok (.skp 0) ∧ decodeWord 0xF50A = .ok (.ldVxK 5) ∧ decodeWord 0xF255 = .ok (.storeRegs 2)

/-- Decoding the encoding of any well-formed instruction gives it back, with every operand at every value. -/
def Obligations.DecodeOfEncode : Prop := ∀ i : Instr, i.wellFormed = true → decodeWord (encode i) = .ok i

/-- Each word has at most one meaning: the instruction it decodes to is well formed and encodes to that word. For a word of
family 5 or 9 whose low nibble is not 0 this is the model's choice to keep the ignored nibble as an operand (log 11): the
spec calls 0 the canonical nibble (R98). -/
def Obligations.EncodeOfDecode : Prop :=
  ∀ (w : Word) (i : Instr), decodeWord w = .ok i → i.wellFormed = true ∧ encode i = w

/-- Decoding is total: a word is an instruction unless it is in family 8 with a low nibble, or in family E or F with a low
byte, that names none. The nine members of family 8 are an inference the spec marks as its own (R99); that families 5 and 9
hold no unknown word is its decision D8 (log 11), that family A holds none is D4 and family 0 none D9 (log 8). -/
def Obligations.UnknownWordsAreExactlyThese : Prop :=
  ∀ w : Word,
    (decodeWord w = .error (.unknownInstruction w) ↔
      (w.toNat / 4096 = 0x8 ∧ w.toNat % 16 ∈ [0x8, 0x9, 0xA, 0xB, 0xC, 0xD, 0xF]) ∨
      (w.toNat / 4096 = 0xE ∧ w.toNat % 256 ∉ [0x9E, 0xA1]) ∨
      (w.toNat / 4096 = 0xF ∧
        w.toNat % 256 ∉ [0x07, 0x0A, 0x15, 0x18, 0x1E, 0x29, 0x33, 0x55, 0x65])) ∧
    (decodeWord w = .error (.unknownInstruction w) ∨ ∃ i, decodeWord w = .ok i)

/-- Instructions are two bytes, high byte first: the bytes of a well-formed instruction, followed by anything, decode to it
and leave what follows; fewer than two bytes are refused. -/
def Obligations.BytesDecodeTwoAtATime : Prop :=
  (∀ (i : Instr) (rest : List Byte), i.wellFormed = true → decode (encodeBytes i ++ rest) = .ok (i, rest)) ∧
  ∀ bs : List Byte, bs.length < 2 → decode bs = .error .tooShort

/-! ### STEP -/

/-- A running core with `pc` in the window, whose two bytes at `pc` decode to an instruction, runs exactly that instruction,
in the state with the opcode in `ir` and `pc` past it. That `ir` latches the opcode is the spec's decision D21. -/
def Obligations.StepRunsTheDecodedInstruction : Prop :=
  ∀ (s : State) (i : Instr) (op : Word), Running s → InWindow s →
    op.toNat = (s.read s.pc.toNat).toNat * 256 + (s.read (s.pc.toNat + 1)).toNat → decodeWord op = .ok i →
    i.wellFormed = true ∧ step s = exec i { s with ir := op, pc := s.pc + 2 } ∧ (s.pc + 2).toNat = s.pc.toNat + 2

/-- STEP of a halted or faulted core changes nothing: the spec's decision D17. -/
def Obligations.StoppedStepChangesNothing : Prop :=
  ∀ s : State, s.haltCode ≠ .none ∨ s.fault ≠ .none → step s = .next s

/-- STEP with `pc` outside 0x200 to 0xFFE fetches nothing and records PC_RANGE: the spec's decision D14. -/
def Obligations.FetchOutsideTheWindowFaults : Prop :=
  ∀ s : State, Running s → s.pc.toNat < 0x200 ∨ 0xFFE < s.pc.toNat → step s = .next { s with fault := .pcRange }

/-- STEP of an unknown word, and of no other, halts, with `pc` already past it, the word in `ir`, and nothing else changed.
The latch `ir` is the spec's decision D21 (log 8). Which words are unknown rests on D8 for families 5 and 9 (log 11), on D4 for
family A (log 8) and on the inference the spec marks as its own for family 8 (R99). -/
def Obligations.UnknownWordHalts : Prop :=
  ∀ (s : State) (op : Word), Running s → InWindow s →
    op.toNat = (s.read s.pc.toNat).toNat * 256 + (s.read (s.pc.toNat + 1)).toNat →
    ((op.toNat / 4096 = 0x8 ∧ op.toNat % 16 ∈ [0x8, 0x9, 0xA, 0xB, 0xC, 0xD, 0xF]) ∨
      (op.toNat / 4096 = 0xE ∧ op.toNat % 256 ∉ [0x9E, 0xA1]) ∨
      (op.toNat / 4096 = 0xF ∧
        op.toNat % 256 ∉ [0x07, 0x0A, 0x15, 0x18, 0x1E, 0x29, 0x33, 0x55, 0x65]) ↔
      step s = .next { s with ir := op, pc := s.pc + 2, haltCode := .unknownInstruction })

/-- STEP always returns: in every state, reachable or not, it answers a next state. -/
def Obligations.StepAlwaysReturns : Prop := ∀ s : State, ∃ t, step s = .next t

/-- A retrying STEP changes `ir` alone, leaving `pc` at the instruction; the two retry instructions retry exactly while
their gate is closed, and a STEP that finds the gate open moves past the instruction. That there is an `ir` to change is
the spec's decision D21, that the gate of DXYN comes before its checks D11. -/
def Obligations.RetryChangesOnlyTheLatchedOpcode : Prop :=
  ∀ (s : State) (i : Instr), Running s → InWindow s → decodeWord s.fetchWord = .ok i →
    ((∃ x y n, i = .drw x y n) → (s.vblank = false → step s = .next { s with ir := s.fetchWord }) ∧
      (s.vblank = true → ∃ t, step s = .next t ∧ t.pc = s.pc + 2)) ∧
    ((∃ x, i = .ldVxK x) → (s.keys = 0 → step s = .next { s with ir := s.fetchWord }) ∧
      (s.keys ≠ 0 → ∃ t, step s = .next t ∧ t.pc = s.pc + 2)) ∧
    (∀ t, step s = .next t → t.pc = s.pc → ((∃ x y n, i = .drw x y n) ∧ s.vblank = false) ∨
      ((∃ x, i = .ldVxK x) ∧ s.keys = 0) ∨ (∃ nnn, i = .jp nnn ∨ i = .call nnn ∨ i = .jpV0 nnn) ∨ i = .ret)

/-- Where `pc` is after a STEP from the window, instruction by instruction: a skip moves it by 4 exactly when its condition
holds, else by 2. The table is R29's; which skip tests what is the spec's decision D6, the ignored nibble D8; what it says of
halts, of faults (a key number above 15 among them) and of the sum of BNNN are D19, D15, D16 and D32. -/
def Obligations.ProgramCounterAfterStep : Prop :=
  ∀ (s t : State) (i : Instr), Running s → InWindow s → decodeWord s.fetchWord = .ok i → step s = .next t →
    match i with
    | .jp nnn => t.pc.toNat = nnn.toNat
    | .jpV0 nnn => t.pc.toNat = nnn.toNat + s.v[(0 : Reg)].toNat
    | .call nnn => if s.sp.val = 16 then t.pc = s.pc + 2 else t.pc.toNat = nnn.toNat
    | .ret => if s.sp.val = 0 then t.pc = s.pc + 2 else ∃ k : Fin 16, k.val + 1 = s.sp.val ∧ t.pc = s.stack[k]
    | .seImm x nn => t.pc.toNat = s.pc.toNat + if s.v[x] = nn then 4 else 2
    | .sneImm x nn => t.pc.toNat = s.pc.toNat + if s.v[x] = nn then 2 else 4
    | .seReg x y _ => t.pc.toNat = s.pc.toNat + if s.v[x] = s.v[y] then 4 else 2
    | .sneReg x y _ => t.pc.toNat = s.pc.toNat + if s.v[x] = s.v[y] then 2 else 4
    | .skp x =>
      t.pc.toNat = s.pc.toNat + if s.v[x].toNat ≤ 15 ∧ s.keys.getLsbD s.v[x].toNat = true then 4 else 2
    | .sknp x =>
      t.pc.toNat = s.pc.toNat + if s.v[x].toNat ≤ 15 ∧ s.keys.getLsbD s.v[x].toNat = false then 4 else 2
    | .drw _ _ _ => t.pc = if s.vblank then s.pc + 2 else s.pc
    | .ldVxK _ => t.pc = if s.keys = 0 then s.pc else s.pc + 2
    | _ => t.pc.toNat = s.pc.toNat + 2

/-! ### Whole-machine rules -/

/-- The reset state meets the invariant of a run. -/
def Obligations.ResetMeetsTheInvariant : Prop := RunInv State.reset

/-- Every STEP from a state that meets the invariant, reachable or not, leaves one that meets it: memory stays in canonical
form and is never stored to below 0x200, a halt and a fault are never both recorded, the live return addresses and `pc`
stay in their ranges. -/
def Obligations.StepKeepsTheInvariant : Prop := ∀ s t : State, RunInv s → step s = .next t → RunInv t

/-- Any sequence of host events, in any order and with any payload, keeps the invariant, and always comes to a state. -/
def Obligations.EventsKeepTheInvariant : Prop :=
  ∀ (es : List Event) (s : State), RunInv s → ∃ t, applyEvents es s = .next t ∧ RunInv t

/-- No instruction changes any piece of the state but those R38's table (with the latch its rule may raise, and the
model's own counter of draws, log 3) says it writes; every byte of memory outside the stored addresses, and all of memory
for an instruction that stores nothing, reads as before. -/
def Obligations.InstructionsWriteOnlyTheirTable : Prop :=
  ∀ (i : Instr) (s t : State), exec i s = .next t → Frame s t (mayWrite s i)

/-- A STEP never changes a byte below 0x200: the spec's decision D13 enforces the document's invariant. -/
def Obligations.StepNeverStoresBelowTheProgram : Prop :=
  ∀ s t : State, step s = .next t → ∀ a, a < 0x200 → t.read a = s.read a

/-- `sp` is 0 to 16; a push at 16 halts and leaves it, a pop at 0 halts and leaves it; otherwise they move it by one; no
other instruction writes it or reads it, so that with any other `sp` it does the same; reset leaves 0. -/
def Obligations.StackPointerDiscipline : Prop :=
  (∀ s : State, s.sp.val ≤ 16) ∧ State.reset.sp = 0 ∧
  (∀ (s : State) (nnn : Addr), ∃ t, exec (.call nnn) s = .next t ∧
    (s.sp.val = 16 → t.haltCode = .stackOverflow ∧ t.sp = s.sp) ∧ (s.sp.val < 16 → t.sp.val = s.sp.val + 1)) ∧
  (∀ s : State, ∃ t, exec .ret s = .next t ∧
    (s.sp.val = 0 → t.haltCode = .stackUnderflow ∧ t.sp = s.sp) ∧ (0 < s.sp.val → t.sp.val + 1 = s.sp.val)) ∧
  (∀ (i : Instr) (s t : State) (n : Fin 17), i ≠ .ret → (∀ nnn, i ≠ .call nnn) → exec i s = .next t →
    t.sp = s.sp ∧ exec i { s with sp := n } = .next { t with sp := n })

/-- Faults are precise: an instruction that records a fault changes nothing else, a STEP that faults changes `fault` and, unless
it is PC_RANGE, `ir` and `pc` by the fetch; from then on STEP is inert. The fault mechanism is the spec's decision D16. -/
def Obligations.FaultsArePrecise : Prop :=
  (∀ (i : Instr) (s t : State), exec i s = .next t → t.fault ≠ s.fault → t = { s with fault := t.fault }) ∧
  (∀ s t : State, step s = .next t → t.fault ≠ s.fault →
    (t.fault = .pcRange → t = { s with fault := .pcRange }) ∧
    (t.fault ≠ .pcRange → t = { s with fault := t.fault, ir := s.fetchWord, pc := s.pc + 2 }) ∧
    step t = .next t)

/-- A halt changes `halt_code` alone beside the fetch's `ir` and `pc`, records nothing else, and from then on STEP is inert.
What is left unchanged and where `pc` stands are the spec's decisions D17, D19 and D21. -/
def Obligations.HaltsArePrecise : Prop :=
  (∀ (i : Instr) (s t : State), exec i s = .next t → t.haltCode ≠ s.haltCode → t = { s with haltCode := t.haltCode }) ∧
  (∀ s t : State, step s = .next t → t.haltCode ≠ s.haltCode →
    t = { s with haltCode := t.haltCode, ir := s.fetchWord, pc := s.pc + 2 } ∧ step t = .next t)

/-- A recorded halt or fault stays recorded, whatever the host does but RESET, CONSTRUCT and a LOAD that succeeds; all three
leave the reset state, LOAD up to the program, and keep the model's counter of draws (log 3). No instruction clears a latch.
That CONSTRUCT leaves the reset state is the spec's decision D3; the fault latch, the inert STEP and the events that go on
are D16, D17 and D18 (log 8). -/
def Obligations.OnlyResetAndLoadClearTheLatches : Prop :=
  (∀ (i : Instr) (s t : State), exec i s = .next t → ¬ Running s → ¬ Running t) ∧
  (∀ (e : Event) (s : State), ¬ Running s → e ≠ .reset → e ≠ .construct →
    (∀ bytes, e = .load bytes → 3584 < bytes.length) →
    ∃ t, applyEvent e s = .next t ∧ t.haltCode = s.haltCode ∧ t.fault = s.fault ∧ t.pc = s.pc) ∧
  (∀ s : State, applyEvent .reset s = .next { State.reset with draws := s.draws }) ∧
  (∀ s : State, applyEvent .construct s = .next { State.reset with draws := s.draws }) ∧
  (∀ (bytes : List Byte) (s : State), bytes.length ≤ 3584 →
    ∃ t, applyEvent (.load bytes) s = .next t ∧ { t with mem := [] } = { State.reset with draws := s.draws } ∧
      ∀ a, a < 0x200 ∨ 0x200 + bytes.length ≤ a → t.read a = State.reset.read a)

/-- `current_opcode()`: 0 after reset; after a STEP that fetches, whether it completes, retries, halts or faults, the
fetched opcode; unchanged by an inert STEP, by one that records PC_RANGE, and by every event that does not reset.
The latch is the spec's decision D21. -/
def Obligations.CurrentOpcodeIsTheLastFetched : Prop :=
  currentOpcode State.reset = 0 ∧
  (∀ s t : State, step s = .next t →
    currentOpcode t = if Running s ∧ InWindow s then s.fetchWord else currentOpcode s) ∧
  ∀ (e : Event) (s t : State), e ≠ .step → applyEvent e s = .next t →
    currentOpcode t = match e with
      | .reset | .construct => 0
      | .load bytes => if bytes.length ≤ 3584 then 0 else currentOpcode s
      | _ => currentOpcode s

/-! ### Reset and the host's events -/

/-- What reset leaves, element by element: the values of R20 and R300 (`fault` and `ir` are the spec's additions D16 and
D21; the font is the open parameter, log 1). -/
def Obligations.ResetState : Prop :=
  (∀ a : Fin 80, State.reset.read a.val = Config.font a) ∧ (∀ a, 80 ≤ a → State.reset.read a = 0) ∧
  (∀ k : Fin 256, State.reset.display[k] = 0) ∧ (∀ k : Fin 16, State.reset.stack[k] = 0) ∧
  (∀ x : Reg, State.reset.v[x] = 0) ∧ State.reset.i = 0 ∧ State.reset.pc = 0x200 ∧ State.reset.sp = 0 ∧
  State.reset.dt = 0 ∧ State.reset.st = 0 ∧ State.reset.keys = 0 ∧ State.reset.vblank = false ∧
  State.reset.haltCode = .none ∧ State.reset.fault = .none ∧ State.reset.ir = 0

/-- After a reset the core is not halted and not faulted, no key is held, and, whatever program lies in memory, the first STEP
fetches the word at 0x200 and 0x201: it runs the instruction that word is, with `pc` past it, or halts if it is none. So a
draw waits for a TICK, and a RET halts with stack-underflow. The fault latch and `ir` are the spec's additions D16 and D21, the
state a RET halts in and the gate that comes before a draw's checks its decisions D19 and D11 (log 8). -/
def Obligations.FirstStepAfterReset : Prop :=
  ∀ s : State, ∃ r, applyEvent .reset s = .next r ∧ Running r ∧ InWindow r ∧ r.pc = 0x200 ∧
    r.vblank = false ∧ r.keys = 0 ∧ r.sp = 0 ∧
    ∀ (m : Memory) (op : Word), op.toNat = (m.read 0x200).toNat * 256 + (m.read 0x201).toNat →
      (∃ t, step { r with mem := m } = .next t ∧ currentOpcode t = op) ∧
      (∀ i, decodeWord op = .ok i → step { r with mem := m } = exec i { r with mem := m, ir := op, pc := 0x202 }) ∧
      (∀ e, decodeWord op = .error e →
        step { r with mem := m } = .next { r with mem := m, ir := op, pc := 0x202, haltCode := .unknownInstruction }) ∧
      ((∃ x y n, decodeWord op = .ok (.drw x y n)) →
        step { r with mem := m } = .next { r with mem := m, ir := op }) ∧
      (decodeWord op = .ok .ret →
        step { r with mem := m } = .next { r with mem := m, ir := op, pc := 0x202, haltCode := .stackUnderflow })

/-- LOAD: a ROM of more than 3584 bytes is refused and changes nothing; any other resets the core and lies in memory byte
by byte from 0x200, every other byte being reset's. That the reset clears `fault` and `ir` rests on the spec's additions
D16 and D21 (log 8); that the counter of draws goes on is the model's choice (log 3). -/
def Obligations.LoadPlacesTheProgram : Prop :=
  ∀ (bytes : List Byte) (s : State),
    (3584 < bytes.length → load bytes s = (.romTooLarge, s)) ∧
    (bytes.length ≤ 3584 → (load bytes s).1 = .ok ∧
      { (load bytes s).2 with mem := [] } = { State.reset with draws := s.draws } ∧
      (∀ k (h : k < bytes.length), (load bytes s).2.read (0x200 + k) = bytes[k]) ∧
      ∀ a, a < 0x200 ∨ 0x200 + bytes.length ≤ a → (load bytes s).2.read a = State.reset.read a)

/-- The byte at the lower address is the high byte of the opcode, which carries the family and `x`; the byte after it the
low byte, which carries `y` and `n`, or `nn`. A loaded program lies in memory byte by byte and is read so, with no swap. -/
def Obligations.FetchIsBigEndian : Prop :=
  (∀ s : State, s.fetchWord.toNat = (s.read s.pc.toNat).toNat * 256 + (s.read (s.pc.toNat + 1)).toNat ∧
    family s.fetchWord = (s.read s.pc.toNat).toNat / 16 ∧
    (fieldX s.fetchWord).val = (s.read s.pc.toNat).toNat % 16 ∧
    (fieldY s.fetchWord).val = (s.read (s.pc.toNat + 1)).toNat / 16 ∧
    (fieldN s.fetchWord).toNat = (s.read (s.pc.toNat + 1)).toNat % 16 ∧
    fieldNN s.fetchWord = s.read (s.pc.toNat + 1)) ∧
  (∀ (bytes : List Byte) (s : State) (k : Nat) (h : k < bytes.length), bytes.length ≤ 3584 →
    (load bytes s).2.read (0x200 + k) = bytes[k]) ∧
  ∀ (bytes : List Byte) (s : State) (k : Nat) (h : k + 1 < bytes.length), bytes.length ≤ 3584 →
    ({ (load bytes s).2 with pc := BitVec.ofNat 16 (0x200 + k) } : State).fetchWord.toNat =
      bytes[k].toNat * 256 + bytes[k + 1].toNat

/-- TICK counts both timers down to 0 and no further, sets `vblank`, and changes nothing else. That it acts on a halted or
faulted core too is the spec's decision D18. -/
def Obligations.TickCountsDownAndSetsVblank : Prop :=
  ∀ s : State, applyEvent .tick s = .next (tick s) ∧
    (tick s).dt.toNat = s.dt.toNat - 1 ∧ (tick s).st.toNat = s.st.toNat - 1 ∧ (tick s).vblank = true ∧
    Frame s (tick s) (fun e => e = .dt ∨ e = .st ∨ e = .vblank)

/-- A delay timer written with `v` reads `max(v - n, 0)` after `n` TICKs: derived by the spec from R270. -/
def Obligations.DelayTimerReadsElapsedTicks : Prop :=
  ∀ (s : State) (x y : Reg) (n : Nat), ∃ t u, exec (.ldDtVx x) s = .next t ∧
    exec (.ldVxDt y) (tick^[n] t) = .next u ∧ u.v[y].toNat = s.v[x].toNat - n

/-- KEY_DOWN sets and KEY_UP clears the bit named by the low four bits of its argument, and nothing else changes. That they act
on a halted or faulted core too is the spec's decision D18. -/
def Obligations.KeyEventsMoveOneBit : Prop :=
  ∀ (s : State) (k : Nat),
    (∃ t, applyEvent (.keyDown k) s = .next t ∧
      (∀ j, j < 16 → t.keys.getLsbD j = (decide (j = k % 16) || s.keys.getLsbD j)) ∧ Frame s t (· = .keys)) ∧
    (∃ t, applyEvent (.keyUp k) s = .next t ∧
      (∀ j, j < 16 → t.keys.getLsbD j = (!decide (j = k % 16) && s.keys.getLsbD j)) ∧ Frame s t (· = .keys))

/-- `get_pixel(x, y)` reads the packed bit for `(x mod 64, y mod 32)`. -/
def Obligations.GetPixelReadsTheWrappedPixel : Prop :=
  ∀ (s : State) (x y : Nat) (k : Fin 256), k.val = y % 32 * 8 + x % 64 / 8 →
    getPixel x y s = s.display[k].getLsbD (7 - x % 64 % 8)

/-- Every byte stored by FX55 or FX33 is the byte a fetch that covers its address then reads, whether as the high or as the low
byte of the opcode: derived by the spec. Where the stores are allowed rests on the spec's decisions D12 and D13, that
FX55 is the store on D6. -/
def Obligations.StoredBytesAreFetched : Prop :=
  (∀ (s : State) (x : Reg), 0x200 ≤ s.i.toNat → s.i.toNat + x.val ≤ 0xFFF →
    ∃ t, exec (.storeRegs x) s = .next t ∧ ∀ (k : Reg) (p : Word), k ≤ x →
      (p.toNat = s.i.toNat + k.val → ({ t with pc := p } : State).fetchWord.toNat / 256 = s.v[k].toNat) ∧
      (p.toNat + 1 = s.i.toNat + k.val → ({ t with pc := p } : State).fetchWord.toNat % 256 = s.v[k].toNat)) ∧
  ∀ (s : State) (x : Reg), 0x200 ≤ s.i.toNat → s.i.toNat + 2 ≤ 0xFFF →
    ∃ t, exec (.ldB x) s = .next t ∧ ∀ (k : Nat) (p : Word), k < 3 →
      (p.toNat = s.i.toNat + k →
        ({ t with pc := p } : State).fetchWord.toNat / 256 = s.v[x].toNat / 10 ^ (2 - k) % 10) ∧
      (p.toNat + 1 = s.i.toNat + k →
        ({ t with pc := p } : State).fetchWord.toNat % 256 = s.v[x].toNat / 10 ^ (2 - k) % 10)

/-! ### Control flow -/

/-- 00E0, exactly that word, clears the display and changes nothing else: not `vblank`, not `V[0xF]`. -/
def Obligations.ClsClearsTheDisplay : Prop :=
  EncodedAs .cls 0x00E0 ∧
  ∀ s : State, ∃ t, exec .cls s = .next t ∧ (∀ k : Fin 256, t.display[k] = 0) ∧
    Frame s t (fun e => ∃ k, e = .displayByte k)

/-- 00EE pops `pc`, the slot keeping its value (the spec's decision D24); with nothing pushed it halts with
stack-underflow and changes nothing else (D19). -/
def Obligations.RetPopsTheProgramCounter : Prop :=
  EncodedAs .ret 0x00EE ∧
  ∀ s : State,
    (s.sp.val = 0 → exec .ret s = .next { s with haltCode := .stackUnderflow }) ∧
    (0 < s.sp.val → ∃ t, exec .ret s = .next t ∧ t.sp.val + 1 = s.sp.val ∧
      (∀ k : Fin 16, k.val = t.sp.val → t.pc = s.stack[k]) ∧ Frame s t (fun e => e = .sp ∨ e = .pc))

/-- 0NNN changes nothing, whatever its operand. Its diagnostic is no state (the spec's decision D22), and its words are all
of family 0 but 00E0 and 00EE (D9). -/
def Obligations.SysChangesNothing : Prop :=
  (∀ nnn : Addr, nnn ≠ 0x0E0 → nnn ≠ 0x0EE → EncodedAs (.sys nnn) nnn.toNat) ∧
  ∀ (s : State) (nnn : Addr), exec (.sys nnn) s = .next s

/-- 1NNN puts `nnn` into `pc`, odd or not, and changes nothing else; a target outside the window makes the next STEP of
a running core record PC_RANGE; a jump to itself leaves the state as it was but for `ir`. The fault and
`ir` are the spec's decisions D14 and D21. -/
def Obligations.JpSetsTheProgramCounter : Prop :=
  (∀ nnn : Addr, EncodedAs (.jp nnn) (0x1000 + nnn.toNat)) ∧
  ∀ (s : State) (nnn : Addr), ∃ t, exec (.jp nnn) s = .next t ∧ t.pc.toNat = nnn.toNat ∧
    Frame s t (· = .pc) ∧
    (Running s → nnn.toNat < 0x200 ∨ 0xFFE < nnn.toNat → step t = .next { t with fault := .pcRange }) ∧
    (Running s → InWindow s → decodeWord s.fetchWord = .ok (.jp nnn) → s.pc.toNat = nnn.toNat →
      step s = .next { s with ir := s.fetchWord })

/-- 2NNN pushes the address of the instruction after it and jumps; with sixteen entries pushed it halts with
stack-overflow, and no slot, `sp` or `pc` changes (the spec's decision D19). -/
def Obligations.CallPushesAndJumps : Prop :=
  (∀ nnn : Addr, EncodedAs (.call nnn) (0x2000 + nnn.toNat)) ∧
  ∀ (s : State) (nnn : Addr),
    (s.sp.val = 16 → exec (.call nnn) s = .next { s with haltCode := .stackOverflow }) ∧
    (s.sp.val < 16 → ∃ t, exec (.call nnn) s = .next t ∧ t.sp.val = s.sp.val + 1 ∧ t.pc.toNat = nnn.toNat ∧
      (∀ k : Fin 16, k.val = s.sp.val → t.stack[k] = s.pc) ∧
      Frame s t (fun e => (∃ k, e = .stackSlot k ∧ k.val = s.sp.val) ∨ e = .sp ∨ e = .pc))

/-- A RET that finds the `sp` its CALL left and the return address still in the pushed slot, whatever else has changed since,
comes back to the instruction after the CALL, with `sp` as before the CALL. The place of the slot is the spec's decision
D24 (log 8). -/
def Obligations.RetAnswersCall : Prop :=
  ∀ (s : State) (nnn : Addr) (k : Fin 16), k.val = s.sp.val →
    ∃ t, exec (.call nnn) s = .next t ∧ t.stack[k] = s.pc ∧
      ∀ s' : State, s'.sp = t.sp → s'.stack[k] = s.pc →
        ∃ u, exec .ret s' = .next u ∧ u.pc = s.pc ∧ u.sp = s.sp

/-- 3XNN skips when V[x] is `nn`, 4XNN when it is not; nothing else changes. Which is which is the spec's decision D6. -/
def Obligations.SkipsOnAnImmediate : Prop :=
  ∀ (s : State) (x : Reg) (nn : Byte),
    EncodedAs (.seImm x nn) (0x3000 + x.val * 256 + nn.toNat) ∧
    EncodedAs (.sneImm x nn) (0x4000 + x.val * 256 + nn.toNat) ∧
    exec (.seImm x nn) s = .next { s with pc := if s.v[x] = nn then s.pc + 2 else s.pc } ∧
    exec (.sneImm x nn) s = .next { s with pc := if s.v[x] = nn then s.pc else s.pc + 2 }

/-- 5XYn skips when V[x] is V[y], 9XYn when it is not, whatever the low nibble; nothing else changes. Which is which is the
spec's decision D6, that the nibble is ignored D8. -/
def Obligations.SkipsOnRegisters : Prop :=
  ∀ (s : State) (x y : Reg) (n : Nibble),
    EncodedAs (.seReg x y n) (0x5000 + x.val * 256 + y.val * 16 + n.toNat) ∧
    EncodedAs (.sneReg x y n) (0x9000 + x.val * 256 + y.val * 16 + n.toNat) ∧
    exec (.seReg x y n) s = .next { s with pc := if s.v[x] = s.v[y] then s.pc + 2 else s.pc } ∧
    exec (.sneReg x y n) s = .next { s with pc := if s.v[x] = s.v[y] then s.pc else s.pc + 2 }

/-- BNNN puts `nnn + V[0]` into `pc`; the sum is not reduced modulo 4096 (the spec's decision D32). -/
def Obligations.JpV0AddsTheRegister : Prop :=
  (∀ nnn : Addr, EncodedAs (.jpV0 nnn) (0xB000 + nnn.toNat)) ∧
  ∀ (s : State) (nnn : Addr), ∃ t, exec (.jpV0 nnn) s = .next t ∧
    t.pc.toNat = nnn.toNat + s.v[(0 : Reg)].toNat ∧ Frame s t (· = .pc)

/-! ### Arithmetic and logic -/

/-- 6XNN: V[x] becomes `nn`, for every register; nothing else changes. -/
def Obligations.LdImmLoads : Prop :=
  ∀ (s : State) (x : Reg) (nn : Byte),
    EncodedAs (.ldImm x nn) (0x6000 + x.val * 256 + nn.toNat) ∧
    ∃ t, exec (.ldImm x nn) s = .next t ∧ t.v[x] = nn ∧ Frame s t (· = .reg x)

/-- 7XNN: V[x] becomes the sum modulo 256; no flag is written, so V[0xF] is unchanged unless it is V[x]. -/
def Obligations.AddImmWraps : Prop :=
  ∀ (s : State) (x : Reg) (nn : Byte),
    EncodedAs (.addImm x nn) (0x7000 + x.val * 256 + nn.toNat) ∧
    ∃ t, exec (.addImm x nn) s = .next t ∧ t.v[x].toNat = (s.v[x].toNat + nn.toNat) % 256 ∧
      Frame s t (· = .reg x)

/-- 8XY0 copies V[y] to V[x] and nothing else: the spec's decision D6. -/
def Obligations.LdRegCopies : Prop :=
  ∀ (s : State) (x y : Reg),
    EncodedAs (.ldReg x y) (0x8000 + x.val * 256 + y.val * 16) ∧
    ∃ t, exec (.ldReg x y) s = .next t ∧ t.v[x] = s.v[y] ∧ Frame s t (· = .reg x)

/-- 8XY1, 8XY2, 8XY3 are or, and, exclusive or, bit by bit, and always leave V[0xF] 0. Which is which is the spec's
decision D6. -/
def Obligations.LogicOpsClearTheFlag : Prop :=
  ∀ (s : State) (x y : Reg),
    EncodedAs (.orReg x y) (0x8001 + x.val * 256 + y.val * 16) ∧
    EncodedAs (.andReg x y) (0x8002 + x.val * 256 + y.val * 16) ∧
    EncodedAs (.xorReg x y) (0x8003 + x.val * 256 + y.val * 16) ∧
    (∃ t, exec (.orReg x y) s = .next t ∧ t.v[(15 : Reg)] = 0 ∧
      (x ≠ 15 → ∀ j, t.v[x].getLsbD j = (s.v[x].getLsbD j || s.v[y].getLsbD j)) ∧
      Frame s t (fun e => e = .reg x ∨ e = .reg 15)) ∧
    (∃ t, exec (.andReg x y) s = .next t ∧ t.v[(15 : Reg)] = 0 ∧
      (x ≠ 15 → ∀ j, t.v[x].getLsbD j = (s.v[x].getLsbD j && s.v[y].getLsbD j)) ∧
      Frame s t (fun e => e = .reg x ∨ e = .reg 15)) ∧
    (∃ t, exec (.xorReg x y) s = .next t ∧ t.v[(15 : Reg)] = 0 ∧
      (x ≠ 15 → ∀ j, t.v[x].getLsbD j = (s.v[x].getLsbD j ^^ s.v[y].getLsbD j)) ∧
      Frame s t (fun e => e = .reg x ∨ e = .reg 15))

/-- 8XY4: V[x] becomes the sum modulo 256 and V[0xF] 1 exactly when the sum of the old values exceeds 255; with x = 0xF the
flag remains (the spec's decision D7). -/
def Obligations.AddRegReportsCarry : Prop :=
  ∀ (s : State) (x y : Reg),
    EncodedAs (.addReg x y) (0x8004 + x.val * 256 + y.val * 16) ∧
    ∃ t, exec (.addReg x y) s = .next t ∧
      (x ≠ 15 → t.v[x].toNat = (s.v[x].toNat + s.v[y].toNat) % 256) ∧
      t.v[(15 : Reg)] = (if 255 < s.v[x].toNat + s.v[y].toNat then 1 else 0) ∧
      Frame s t (fun e => e = .reg x ∨ e = .reg 15)

/-- 8XY5 computes V[x] - V[y], 8XY7 V[y] - V[x], modulo 256, and V[0xF] is 1 exactly when no borrow occurs. Which has V[x] as
the minuend is the spec's decision D6; with x = 0xF the flag remains (D7). -/
def Obligations.SubtractionsReportNoBorrow : Prop :=
  ∀ (s : State) (x y : Reg),
    EncodedAs (.subReg x y) (0x8005 + x.val * 256 + y.val * 16) ∧
    EncodedAs (.subnReg x y) (0x8007 + x.val * 256 + y.val * 16) ∧
    (∃ t, exec (.subReg x y) s = .next t ∧
      (x ≠ 15 → t.v[x].toNat = (256 + s.v[x].toNat - s.v[y].toNat) % 256) ∧
      t.v[(15 : Reg)] = (if s.v[y].toNat ≤ s.v[x].toNat then 1 else 0) ∧
      Frame s t (fun e => e = .reg x ∨ e = .reg 15)) ∧
    (∃ t, exec (.subnReg x y) s = .next t ∧
      (x ≠ 15 → t.v[x].toNat = (256 + s.v[y].toNat - s.v[x].toNat) % 256) ∧
      t.v[(15 : Reg)] = (if s.v[x].toNat ≤ s.v[y].toNat then 1 else 0) ∧
      Frame s t (fun e => e = .reg x ∨ e = .reg 15))

/-- 8XY6 and 8XYE shift V[y], not V[x], by one into V[x], right and left, and V[0xF] becomes the bit shifted out. Which is
which is the spec's decision D6; with x = 0xF the flag remains (D7). -/
def Obligations.ShiftsTakeTheSecondRegister : Prop :=
  ∀ (s : State) (x y : Reg),
    EncodedAs (.shrReg x y) (0x8006 + x.val * 256 + y.val * 16) ∧
    EncodedAs (.shlReg x y) (0x800E + x.val * 256 + y.val * 16) ∧
    (∃ t, exec (.shrReg x y) s = .next t ∧ (x ≠ 15 → t.v[x].toNat = s.v[y].toNat / 2) ∧
      t.v[(15 : Reg)].toNat = s.v[y].toNat % 2 ∧ Frame s t (fun e => e = .reg x ∨ e = .reg 15)) ∧
    (∃ t, exec (.shlReg x y) s = .next t ∧ (x ≠ 15 → t.v[x].toNat = s.v[y].toNat * 2 % 256) ∧
      t.v[(15 : Reg)].toNat = s.v[y].toNat / 128 ∧ Frame s t (fun e => e = .reg x ∨ e = .reg 15))

/-- CXNN: V[x] becomes the draw, a free value (log 3), masked by `nn`; so no bit outside `nn` is ever set; nothing else
changes but the model's counter, which moves on so that the next draw is a fresh one. -/
def Obligations.RndMasksTheDraw : Prop :=
  ∀ (s : State) (x : Reg) (nn : Byte),
    EncodedAs (.rnd x nn) (0xC000 + x.val * 256 + nn.toNat) ∧
    ∃ t, exec (.rnd x nn) s = .next t ∧ t.v[x] = Config.draw s.draws &&& nn ∧ t.v[x] &&& ~~~nn = 0 ∧
      t.draws = s.draws + 1 ∧ Frame s t (fun e => e = .reg x ∨ e = .draws)

/-! ### Graphics -/

/-- While `vblank` is 0 a draw only rewinds `pc`, reads no operand and cannot fault; a draw that proceeds clears `vblank`; no
instruction and no event but TICK sets it, TICK does, and it is 0 after reset: so at most one draw
proceeds between two TICKs. That the gate comes before every check is the spec's decision D11. -/
def Obligations.DrawIsGatedByVblank : Prop :=
  (∀ (s : State) (x y : Reg) (n : Nibble), s.vblank = false →
    exec (.drw x y n) s = .next { s with pc := s.pc - 2 }) ∧
  (∀ (s t : State) (x y : Reg) (n : Nibble), s.vblank = true → exec (.drw x y n) s = .next t →
    t.vblank = false ∨ t = { s with fault := .memRange }) ∧
  (∀ (i : Instr) (s t : State), exec i s = .next t → s.vblank = false → t.vblank = false) ∧
  (∀ (e : Event) (s t : State), e ≠ .tick → applyEvent e s = .next t → s.vblank = false → t.vblank = false) ∧
  (∀ s : State, (tick s).vblank = true) ∧ State.reset.vblank = false

/-- A proceeding DXYN flips exactly the on-screen pixels under a 1 bit of the sprite, whose origin is taken modulo the screen
and whose rows and columns beyond it are dropped, sets V[0xF] to 1 exactly when a lit pixel was erased, and clears
`vblank`. One that may proceed and has a row above 0xFFF records MEM_RANGE and changes nothing else. The origin, the bit
order and the fault are the spec's decisions D10, D11 and D12. -/
def Obligations.DrawFlipsTheSpritesPixels : Prop :=
  ∀ (s : State) (x y : Reg) (n : Nibble),
    EncodedAs (.drw x y n) (0xD000 + x.val * 256 + y.val * 16 + n.toNat) ∧
    (s.vblank = true → SpriteInMemory s n →
      ∃ t, exec (.drw x y n) s = .next t ∧
        (∀ px py, pixel t.display px py = (pixel s.display px py ^^ spriteBit s x y n px py)) ∧
        (erases s x y n → t.v[(15 : Reg)] = 1) ∧ (¬ erases s x y n → t.v[(15 : Reg)] = 0) ∧ t.vblank = false ∧
        Frame s t (fun e => (∃ k, e = .displayByte k) ∨ e = .reg 15 ∨ e = .vblank)) ∧
    (s.vblank = true → ¬ SpriteInMemory s n → exec (.drw x y n) s = .next { s with fault := .memRange })

/-- Drawing the same sprite twice at the same coordinate, with a TICK between, restores the display, whatever it showed; the
second draw reports a collision exactly when some pixel under a 1 bit was dark before the first: derived by the spec. Which
pixels lie under a 1 bit rests on the spec's decisions D10 (the origin modulo the screen, the extent clipped) and D11 (the
order of the bits). The second draw is made from any state that has the first's display and the first's operands, so
x = 0xF and y = 0xF are included. -/
def Obligations.DrawingTwiceRestoresTheDisplay : Prop :=
  ∀ (s : State) (x y : Reg) (n : Nibble), s.vblank = true → SpriteInMemory s n →
    ∃ t, exec (.drw x y n) s = .next t ∧
      ∀ s' : State, s'.display = t.display → s'.mem = s.mem → s'.i = s.i → s'.v[x] = s.v[x] → s'.v[y] = s.v[y] →
        ∃ u, exec (.drw x y n) (tick s') = .next u ∧ u.display = s.display ∧
          (u.v[(15 : Reg)] = 1 ↔ ∃ px py, spriteBit s x y n px py = true ∧ pixel s.display px py = false)

/-! ### Input -/

/-- EX9E skips when the key numbered V[x] is held, EXA1 when it is not, and nothing else changes (which is which is the
spec's decision D6); a number above 15 records KEY_RANGE and changes nothing else (D15). -/
def Obligations.SkipsOnAKey : Prop :=
  ∀ (s : State) (x : Reg),
    EncodedAs (.skp x) (0xE09E + x.val * 256) ∧ EncodedAs (.sknp x) (0xE0A1 + x.val * 256) ∧
    (15 < s.v[x].toNat → exec (.skp x) s = .next { s with fault := .keyRange } ∧
      exec (.sknp x) s = .next { s with fault := .keyRange }) ∧
    (s.v[x].toNat ≤ 15 →
      exec (.skp x) s = .next { s with pc := if s.keys.getLsbD s.v[x].toNat then s.pc + 2 else s.pc } ∧
      exec (.sknp x) s = .next { s with pc := if s.keys.getLsbD s.v[x].toNat then s.pc else s.pc + 2 })

/-- FX0A with no key held rewinds `pc` and changes nothing else; with a key held V[x] becomes the number of the least one,
and nothing else changes. -/
def Obligations.KeyWaitTakesTheLeastKey : Prop :=
  ∀ (s : State) (x : Reg),
    EncodedAs (.ldVxK x) (0xF00A + x.val * 256) ∧
    (s.keys = 0 → exec (.ldVxK x) s = .next { s with pc := s.pc - 2 }) ∧
    (s.keys ≠ 0 → ∃ t, exec (.ldVxK x) s = .next t ∧ t.v[x].toNat ≤ 15 ∧
      s.keys.getLsbD t.v[x].toNat = true ∧ (∀ j, j < t.v[x].toNat → s.keys.getLsbD j = false) ∧
      Frame s t (· = .reg x))

/-! ### Memory, index and timers -/

/-- ANNN: I becomes `nnn`, and nothing else changes: the spec's decision D4. -/
def Obligations.LdILoadsTheAddress : Prop :=
  (∀ nnn : Addr, EncodedAs (.ldI nnn) (0xA000 + nnn.toNat)) ∧
  ∀ (s : State) (nnn : Addr), ∃ t, exec (.ldI nnn) s = .next t ∧ t.i.toNat = nnn.toNat ∧ Frame s t (· = .i)

/-- FX07 reads the delay timer, FX15 writes it, FX18 writes the sound timer, and nothing else changes: the spec's
decision D6. -/
def Obligations.TimerRegistersMove : Prop :=
  ∀ (s : State) (x : Reg),
    EncodedAs (.ldVxDt x) (0xF007 + x.val * 256) ∧ EncodedAs (.ldDtVx x) (0xF015 + x.val * 256) ∧
    EncodedAs (.ldStVx x) (0xF018 + x.val * 256) ∧
    (∃ t, exec (.ldVxDt x) s = .next t ∧ t.v[x] = s.dt ∧ Frame s t (· = .reg x)) ∧
    (∃ t, exec (.ldDtVx x) s = .next t ∧ t.dt = s.v[x] ∧ Frame s t (· = .dt)) ∧
    (∃ t, exec (.ldStVx x) s = .next t ∧ t.st = s.v[x] ∧ Frame s t (· = .st))

/-- FX1E adds V[x] to I modulo 65536 and changes nothing else, V[0xF] included: the spec's decision D23. -/
def Obligations.AddIWrapsAtSixteenBits : Prop :=
  ∀ (s : State) (x : Reg),
    EncodedAs (.addI x) (0xF01E + x.val * 256) ∧
    ∃ t, exec (.addI x) s = .next t ∧ t.i.toNat = (s.i.toNat + s.v[x].toNat) % 65536 ∧ Frame s t (· = .i)

/-- FX29 loads I with the BYTE at `V[x] * 5`, unmasked (the spec's decision D27): the top row of glyph V[x] for V[x] up to
15, and 0 for V[x] 16 to 102, in a state that keeps the invariant and so holds its font (an open parameter, log 1). -/
def Obligations.LdFLoadsTheFontByte : Prop :=
  ∀ (s : State) (x : Reg),
    EncodedAs (.ldF x) (0xF029 + x.val * 256) ∧
    ∃ t, exec (.ldF x) s = .next t ∧ t.i.toNat = (s.read (s.v[x].toNat * 5)).toNat ∧ Frame s t (· = .i) ∧
      (RunInv s → ∀ a : Fin 80, a.val = s.v[x].toNat * 5 → t.i.toNat = (Config.font a).toNat) ∧
      (RunInv s → 16 ≤ s.v[x].toNat → s.v[x].toNat ≤ 102 → t.i = 0)

/-- FX33 stores the hundreds, tens and ones of V[x] at I, I + 1, I + 2 and changes nothing else, I included; a range that
reaches above 0xFFF records MEM_RANGE, else an I below 0x200 WRITE_PROTECT, and then nothing is stored: the faults are the
spec's decisions D12 and D13. -/
def Obligations.LdBStoresDecimalDigits : Prop :=
  ∀ (s : State) (x : Reg),
    EncodedAs (.ldB x) (0xF033 + x.val * 256) ∧
    (0xFFF < s.i.toNat + 2 → exec (.ldB x) s = .next { s with fault := .memRange }) ∧
    (s.i.toNat + 2 ≤ 0xFFF → s.i.toNat < 0x200 → exec (.ldB x) s = .next { s with fault := .writeProtect }) ∧
    (0x200 ≤ s.i.toNat → s.i.toNat + 2 ≤ 0xFFF → ∃ t, exec (.ldB x) s = .next t ∧
      (t.read (s.effAddr 0)).toNat = s.v[x].toNat / 100 ∧
      (t.read (s.effAddr 1)).toNat = s.v[x].toNat / 10 % 10 ∧
      (t.read (s.effAddr 2)).toNat = s.v[x].toNat % 10 ∧
      Frame s t (fun e => ∃ k, k < 3 ∧ e = .memByte (s.effAddr k)))

/-- FX55 stores V[0] to V[x] at I to I + x and advances I by x + 1; a range that reaches above 0xFFF records MEM_RANGE, else an
I below 0x200 WRITE_PROTECT, and then nothing is stored and I stays. That FX55 is the store is the spec's decision D6,
the faults are D12 and D13. -/
def Obligations.StoreRegsStoresTheBlock : Prop :=
  ∀ (s : State) (x : Reg),
    EncodedAs (.storeRegs x) (0xF055 + x.val * 256) ∧
    (0xFFF < s.i.toNat + x.val → exec (.storeRegs x) s = .next { s with fault := .memRange }) ∧
    (s.i.toNat + x.val ≤ 0xFFF → s.i.toNat < 0x200 →
      exec (.storeRegs x) s = .next { s with fault := .writeProtect }) ∧
    (0x200 ≤ s.i.toNat → s.i.toNat + x.val ≤ 0xFFF → ∃ t, exec (.storeRegs x) s = .next t ∧
      (∀ k : Reg, k ≤ x → t.read (s.effAddr k.val) = s.v[k]) ∧ t.i.toNat = s.i.toNat + x.val + 1 ∧
      Frame s t (fun e => (∃ k, k ≤ x.val ∧ e = .memByte (s.effAddr k)) ∨ e = .i))

/-- FX65 loads V[0] to V[x] from I to I + x, reads below 0x200 allowed, and advances I by x + 1; a range that reaches above
0xFFF records MEM_RANGE and changes nothing else. That FX65 is the load is the spec's decision D6, the fault is D12. -/
def Obligations.LoadRegsLoadsTheBlock : Prop :=
  ∀ (s : State) (x : Reg),
    EncodedAs (.loadRegs x) (0xF065 + x.val * 256) ∧
    (0xFFF < s.i.toNat + x.val → exec (.loadRegs x) s = .next { s with fault := .memRange }) ∧
    (s.i.toNat + x.val ≤ 0xFFF → ∃ t, exec (.loadRegs x) s = .next t ∧
      (∀ k : Reg, k ≤ x → t.v[k] = s.read (s.effAddr k.val)) ∧ t.i.toNat = s.i.toNat + x.val + 1 ∧
      Frame s t (fun e => (∃ k : Reg, k ≤ x ∧ e = .reg k) ∨ e = .i))
end

