-- ==== Sys2Proof/Laws/Decode.lean ====
section
/-! SUPPORT. The fields of a word and the bytes of a word as arithmetic, and each family's decoding as one equation. -/

namespace Sys2Proof

theorem slice_toNat (op : Word) (lo w : Nat) : (slice op lo w).toNat = op.toNat / 2 ^ lo % 2 ^ w := by
  simp [slice, BitVec.extractLsb'_toNat, Nat.shiftRight_eq_div_pow]

theorem fieldX_val (op : Word) : (fieldX op).val = op.toNat / 256 % 16 := slice_toNat op 8 4

theorem fieldY_val (op : Word) : (fieldY op).val = op.toNat / 16 % 16 := slice_toNat op 4 4

theorem fieldN_toNat (op : Word) : (fieldN op).toNat = op.toNat % 16 := by simp [fieldN, slice_toNat]

theorem fieldNN_toNat (op : Word) : (fieldNN op).toNat = op.toNat % 256 := by simp [fieldNN, slice_toNat]

theorem fieldNNN_toNat (op : Word) : (fieldNNN op).toNat = op.toNat % 4096 := by simp [fieldNNN, slice_toNat]

theorem family_eq (op : Word) : family op = op.toNat / 4096 := by
  have := op.isLt
  simp only [family, slice_toNat]
  omega

theorem shapeA_toNat {f : Nat} (hf : f < 16) (nnn : Addr) : (shapeA f nnn).toNat = f * 4096 + nnn.toNat := by
  have := nnn.isLt
  rw [shapeA, BitVec.toNat_ofNat]; omega

theorem shapeRI_toNat {f : Nat} (hf : f < 16) (x : Reg) (nn : Byte) :
    (shapeRI f x nn).toNat = f * 4096 + x.val * 256 + nn.toNat := by
  have := nn.isLt
  have := x.isLt
  rw [shapeRI, BitVec.toNat_ofNat]; omega

theorem shapeRRN_toNat {f : Nat} (hf : f < 16) (x y : Reg) (n : Nibble) :
    (shapeRRN f x y n).toNat = f * 4096 + x.val * 256 + y.val * 16 + n.toNat := by
  have := n.isLt
  have := x.isLt
  have := y.isLt
  rw [shapeRRN, BitVec.toNat_ofNat]; omega

/-! ### The fields of a word of a given shape -/

theorem family_shapeA {f : Nat} (hf : f < 16) (nnn : Addr) : family (shapeA f nnn) = f := by
  have := nnn.isLt
  rw [family_eq, shapeA_toNat hf]; omega

theorem fieldNNN_shapeA {f : Nat} (hf : f < 16) (nnn : Addr) : fieldNNN (shapeA f nnn) = nnn := by
  have := nnn.isLt
  apply BitVec.eq_of_toNat_eq
  rw [fieldNNN_toNat, shapeA_toNat hf]; omega

theorem family_shapeRI {f : Nat} (hf : f < 16) (x : Reg) (nn : Byte) : family (shapeRI f x nn) = f := by
  have := nn.isLt
  have := x.isLt
  rw [family_eq, shapeRI_toNat hf]; omega

theorem fieldX_shapeRI {f : Nat} (hf : f < 16) (x : Reg) (nn : Byte) : fieldX (shapeRI f x nn) = x := by
  have := nn.isLt
  have := x.isLt
  apply Fin.ext
  rw [fieldX_val, shapeRI_toNat hf]; omega

theorem fieldNN_shapeRI {f : Nat} (hf : f < 16) (x : Reg) (nn : Byte) : fieldNN (shapeRI f x nn) = nn := by
  have := nn.isLt
  have := x.isLt
  apply BitVec.eq_of_toNat_eq
  rw [fieldNN_toNat, shapeRI_toNat hf]; omega

theorem family_shapeRRN {f : Nat} (hf : f < 16) (x y : Reg) (n : Nibble) : family (shapeRRN f x y n) = f := by
  have := n.isLt
  have := x.isLt
  have := y.isLt
  rw [family_eq, shapeRRN_toNat hf]; omega

theorem fieldX_shapeRRN {f : Nat} (hf : f < 16) (x y : Reg) (n : Nibble) : fieldX (shapeRRN f x y n) = x := by
  have := n.isLt
  have := x.isLt
  have := y.isLt
  apply Fin.ext
  rw [fieldX_val, shapeRRN_toNat hf]; omega

theorem fieldY_shapeRRN {f : Nat} (hf : f < 16) (x y : Reg) (n : Nibble) : fieldY (shapeRRN f x y n) = y := by
  have := n.isLt
  have := x.isLt
  have := y.isLt
  apply Fin.ext
  rw [fieldY_val, shapeRRN_toNat hf]; omega

theorem fieldN_shapeRRN {f : Nat} (hf : f < 16) (x y : Reg) (n : Nibble) : fieldN (shapeRRN f x y n) = n := by
  have := n.isLt
  have := x.isLt
  have := y.isLt
  apply BitVec.eq_of_toNat_eq
  rw [fieldN_toNat, shapeRRN_toNat hf]; omega

/-- The bytes of a word, joined, are the word. -/
theorem joinBytes_split (op : Word) : joinBytes (highByte op) (lowByte op) = op := by
  apply BitVec.eq_of_toNat_eq
  have := op.isLt
  simp only [joinBytes, highByte, lowByte, slice_toNat, BitVec.toNat_ofNat]
  omega

theorem joinBytes_toNat (hi lo : Byte) : (joinBytes hi lo).toNat = hi.toNat * 256 + lo.toNat := by
  have := hi.isLt
  have := lo.isLt
  simp only [joinBytes, BitVec.toNat_ofNat]; omega

/-- Decoding two bytes is decoding their word. -/
theorem decode_cons_cons (hi lo : Byte) (rest : List Byte) :
    decode (hi :: lo :: rest) = (decodeWord (joinBytes hi lo)).map (fun i => (i, rest)) := by
  simp only [decode]
  split <;> simp_all [Except.map]

/-- The host's entry decodes the word whose number it is given. -/
theorem decodeTableWord_eq (nbits w : Nat) :
    decodeTableWord nbits w = (decodeWord (BitVec.ofNat 16 (w % 2 ^ nbits))).toOption := by
  simp only [decodeTableWord, decode_cons_cons, joinBytes_split]
  cases decodeWord (BitVec.ofNat 16 (w % 2 ^ nbits)) <;> rfl

end Sys2Proof
end

