-- ==== Sys2Proof/Laws/State.lean ====
section
/-! SUPPORT. One lemma per field per update of the state, so that no later proof unfolds a record update. -/

namespace Sys2Proof.Machine

section
variable (s : State)

@[simp] theorem State.setReg_mem (x : Reg) (b : Byte) : (s.setReg x b).mem = s.mem := rfl
@[simp] theorem State.setReg_display (x : Reg) (b : Byte) : (s.setReg x b).display = s.display := rfl
@[simp] theorem State.setReg_stack (x : Reg) (b : Byte) : (s.setReg x b).stack = s.stack := rfl
@[simp] theorem State.setReg_sp (x : Reg) (b : Byte) : (s.setReg x b).sp = s.sp := rfl
@[simp] theorem State.setReg_v (x : Reg) (b : Byte) : (s.setReg x b).v = s.v.set x b := rfl
@[simp] theorem State.setReg_i (x : Reg) (b : Byte) : (s.setReg x b).i = s.i := rfl
@[simp] theorem State.setReg_pc (x : Reg) (b : Byte) : (s.setReg x b).pc = s.pc := rfl
@[simp] theorem State.setReg_dt (x : Reg) (b : Byte) : (s.setReg x b).dt = s.dt := rfl
@[simp] theorem State.setReg_st (x : Reg) (b : Byte) : (s.setReg x b).st = s.st := rfl
@[simp] theorem State.setReg_keys (x : Reg) (b : Byte) : (s.setReg x b).keys = s.keys := rfl
@[simp] theorem State.setReg_vblank (x : Reg) (b : Byte) : (s.setReg x b).vblank = s.vblank := rfl
@[simp] theorem State.setReg_haltCode (x : Reg) (b : Byte) : (s.setReg x b).haltCode = s.haltCode := rfl
@[simp] theorem State.setReg_fault (x : Reg) (b : Byte) : (s.setReg x b).fault = s.fault := rfl
@[simp] theorem State.setReg_ir (x : Reg) (b : Byte) : (s.setReg x b).ir = s.ir := rfl
@[simp] theorem State.setReg_draws (x : Reg) (b : Byte) : (s.setReg x b).draws = s.draws := rfl

@[simp] theorem State.setRegs_mem (w : Vector Byte 16) : (s.setRegs w).mem = s.mem := rfl
@[simp] theorem State.setRegs_display (w : Vector Byte 16) : (s.setRegs w).display = s.display := rfl
@[simp] theorem State.setRegs_stack (w : Vector Byte 16) : (s.setRegs w).stack = s.stack := rfl
@[simp] theorem State.setRegs_sp (w : Vector Byte 16) : (s.setRegs w).sp = s.sp := rfl
@[simp] theorem State.setRegs_v (w : Vector Byte 16) : (s.setRegs w).v = w := rfl
@[simp] theorem State.setRegs_i (w : Vector Byte 16) : (s.setRegs w).i = s.i := rfl
@[simp] theorem State.setRegs_pc (w : Vector Byte 16) : (s.setRegs w).pc = s.pc := rfl
@[simp] theorem State.setRegs_dt (w : Vector Byte 16) : (s.setRegs w).dt = s.dt := rfl
@[simp] theorem State.setRegs_st (w : Vector Byte 16) : (s.setRegs w).st = s.st := rfl
@[simp] theorem State.setRegs_keys (w : Vector Byte 16) : (s.setRegs w).keys = s.keys := rfl
@[simp] theorem State.setRegs_vblank (w : Vector Byte 16) : (s.setRegs w).vblank = s.vblank := rfl
@[simp] theorem State.setRegs_haltCode (w : Vector Byte 16) : (s.setRegs w).haltCode = s.haltCode := rfl
@[simp] theorem State.setRegs_fault (w : Vector Byte 16) : (s.setRegs w).fault = s.fault := rfl
@[simp] theorem State.setRegs_ir (w : Vector Byte 16) : (s.setRegs w).ir = s.ir := rfl
@[simp] theorem State.setRegs_draws (w : Vector Byte 16) : (s.setRegs w).draws = s.draws := rfl

@[simp] theorem State.setI_mem (a : Word) : (s.setI a).mem = s.mem := rfl
@[simp] theorem State.setI_display (a : Word) : (s.setI a).display = s.display := rfl
@[simp] theorem State.setI_stack (a : Word) : (s.setI a).stack = s.stack := rfl
@[simp] theorem State.setI_sp (a : Word) : (s.setI a).sp = s.sp := rfl
@[simp] theorem State.setI_v (a : Word) : (s.setI a).v = s.v := rfl
@[simp] theorem State.setI_i (a : Word) : (s.setI a).i = a := rfl
@[simp] theorem State.setI_pc (a : Word) : (s.setI a).pc = s.pc := rfl
@[simp] theorem State.setI_dt (a : Word) : (s.setI a).dt = s.dt := rfl
@[simp] theorem State.setI_st (a : Word) : (s.setI a).st = s.st := rfl
@[simp] theorem State.setI_keys (a : Word) : (s.setI a).keys = s.keys := rfl
@[simp] theorem State.setI_vblank (a : Word) : (s.setI a).vblank = s.vblank := rfl
@[simp] theorem State.setI_haltCode (a : Word) : (s.setI a).haltCode = s.haltCode := rfl
@[simp] theorem State.setI_fault (a : Word) : (s.setI a).fault = s.fault := rfl
@[simp] theorem State.setI_ir (a : Word) : (s.setI a).ir = s.ir := rfl
@[simp] theorem State.setI_draws (a : Word) : (s.setI a).draws = s.draws := rfl

@[simp] theorem State.setPc_mem (a : Word) : (s.setPc a).mem = s.mem := rfl
@[simp] theorem State.setPc_display (a : Word) : (s.setPc a).display = s.display := rfl
@[simp] theorem State.setPc_stack (a : Word) : (s.setPc a).stack = s.stack := rfl
@[simp] theorem State.setPc_sp (a : Word) : (s.setPc a).sp = s.sp := rfl
@[simp] theorem State.setPc_v (a : Word) : (s.setPc a).v = s.v := rfl
@[simp] theorem State.setPc_i (a : Word) : (s.setPc a).i = s.i := rfl
@[simp] theorem State.setPc_pc (a : Word) : (s.setPc a).pc = a := rfl
@[simp] theorem State.setPc_dt (a : Word) : (s.setPc a).dt = s.dt := rfl
@[simp] theorem State.setPc_st (a : Word) : (s.setPc a).st = s.st := rfl
@[simp] theorem State.setPc_keys (a : Word) : (s.setPc a).keys = s.keys := rfl
@[simp] theorem State.setPc_vblank (a : Word) : (s.setPc a).vblank = s.vblank := rfl
@[simp] theorem State.setPc_haltCode (a : Word) : (s.setPc a).haltCode = s.haltCode := rfl
@[simp] theorem State.setPc_fault (a : Word) : (s.setPc a).fault = s.fault := rfl
@[simp] theorem State.setPc_ir (a : Word) : (s.setPc a).ir = s.ir := rfl
@[simp] theorem State.setPc_draws (a : Word) : (s.setPc a).draws = s.draws := rfl

@[simp] theorem State.setDt_mem (b : Byte) : (s.setDt b).mem = s.mem := rfl
@[simp] theorem State.setDt_display (b : Byte) : (s.setDt b).display = s.display := rfl
@[simp] theorem State.setDt_stack (b : Byte) : (s.setDt b).stack = s.stack := rfl
@[simp] theorem State.setDt_sp (b : Byte) : (s.setDt b).sp = s.sp := rfl
@[simp] theorem State.setDt_v (b : Byte) : (s.setDt b).v = s.v := rfl
@[simp] theorem State.setDt_i (b : Byte) : (s.setDt b).i = s.i := rfl
@[simp] theorem State.setDt_pc (b : Byte) : (s.setDt b).pc = s.pc := rfl
@[simp] theorem State.setDt_dt (b : Byte) : (s.setDt b).dt = b := rfl
@[simp] theorem State.setDt_st (b : Byte) : (s.setDt b).st = s.st := rfl
@[simp] theorem State.setDt_keys (b : Byte) : (s.setDt b).keys = s.keys := rfl
@[simp] theorem State.setDt_vblank (b : Byte) : (s.setDt b).vblank = s.vblank := rfl
@[simp] theorem State.setDt_haltCode (b : Byte) : (s.setDt b).haltCode = s.haltCode := rfl
@[simp] theorem State.setDt_fault (b : Byte) : (s.setDt b).fault = s.fault := rfl
@[simp] theorem State.setDt_ir (b : Byte) : (s.setDt b).ir = s.ir := rfl
@[simp] theorem State.setDt_draws (b : Byte) : (s.setDt b).draws = s.draws := rfl

@[simp] theorem State.setSt_mem (b : Byte) : (s.setSt b).mem = s.mem := rfl
@[simp] theorem State.setSt_display (b : Byte) : (s.setSt b).display = s.display := rfl
@[simp] theorem State.setSt_stack (b : Byte) : (s.setSt b).stack = s.stack := rfl
@[simp] theorem State.setSt_sp (b : Byte) : (s.setSt b).sp = s.sp := rfl
@[simp] theorem State.setSt_v (b : Byte) : (s.setSt b).v = s.v := rfl
@[simp] theorem State.setSt_i (b : Byte) : (s.setSt b).i = s.i := rfl
@[simp] theorem State.setSt_pc (b : Byte) : (s.setSt b).pc = s.pc := rfl
@[simp] theorem State.setSt_dt (b : Byte) : (s.setSt b).dt = s.dt := rfl
@[simp] theorem State.setSt_st (b : Byte) : (s.setSt b).st = b := rfl
@[simp] theorem State.setSt_keys (b : Byte) : (s.setSt b).keys = s.keys := rfl
@[simp] theorem State.setSt_vblank (b : Byte) : (s.setSt b).vblank = s.vblank := rfl
@[simp] theorem State.setSt_haltCode (b : Byte) : (s.setSt b).haltCode = s.haltCode := rfl
@[simp] theorem State.setSt_fault (b : Byte) : (s.setSt b).fault = s.fault := rfl
@[simp] theorem State.setSt_ir (b : Byte) : (s.setSt b).ir = s.ir := rfl
@[simp] theorem State.setSt_draws (b : Byte) : (s.setSt b).draws = s.draws := rfl

@[simp] theorem State.setKeys_mem (k : Word) : (s.setKeys k).mem = s.mem := rfl
@[simp] theorem State.setKeys_display (k : Word) : (s.setKeys k).display = s.display := rfl
@[simp] theorem State.setKeys_stack (k : Word) : (s.setKeys k).stack = s.stack := rfl
@[simp] theorem State.setKeys_sp (k : Word) : (s.setKeys k).sp = s.sp := rfl
@[simp] theorem State.setKeys_v (k : Word) : (s.setKeys k).v = s.v := rfl
@[simp] theorem State.setKeys_i (k : Word) : (s.setKeys k).i = s.i := rfl
@[simp] theorem State.setKeys_pc (k : Word) : (s.setKeys k).pc = s.pc := rfl
@[simp] theorem State.setKeys_dt (k : Word) : (s.setKeys k).dt = s.dt := rfl
@[simp] theorem State.setKeys_st (k : Word) : (s.setKeys k).st = s.st := rfl
@[simp] theorem State.setKeys_keys (k : Word) : (s.setKeys k).keys = k := rfl
@[simp] theorem State.setKeys_vblank (k : Word) : (s.setKeys k).vblank = s.vblank := rfl
@[simp] theorem State.setKeys_haltCode (k : Word) : (s.setKeys k).haltCode = s.haltCode := rfl
@[simp] theorem State.setKeys_fault (k : Word) : (s.setKeys k).fault = s.fault := rfl
@[simp] theorem State.setKeys_ir (k : Word) : (s.setKeys k).ir = s.ir := rfl
@[simp] theorem State.setKeys_draws (k : Word) : (s.setKeys k).draws = s.draws := rfl

@[simp] theorem State.setVblank_mem (b : Bool) : (s.setVblank b).mem = s.mem := rfl
@[simp] theorem State.setVblank_display (b : Bool) : (s.setVblank b).display = s.display := rfl
@[simp] theorem State.setVblank_stack (b : Bool) : (s.setVblank b).stack = s.stack := rfl
@[simp] theorem State.setVblank_sp (b : Bool) : (s.setVblank b).sp = s.sp := rfl
@[simp] theorem State.setVblank_v (b : Bool) : (s.setVblank b).v = s.v := rfl
@[simp] theorem State.setVblank_i (b : Bool) : (s.setVblank b).i = s.i := rfl
@[simp] theorem State.setVblank_pc (b : Bool) : (s.setVblank b).pc = s.pc := rfl
@[simp] theorem State.setVblank_dt (b : Bool) : (s.setVblank b).dt = s.dt := rfl
@[simp] theorem State.setVblank_st (b : Bool) : (s.setVblank b).st = s.st := rfl
@[simp] theorem State.setVblank_keys (b : Bool) : (s.setVblank b).keys = s.keys := rfl
@[simp] theorem State.setVblank_vblank (b : Bool) : (s.setVblank b).vblank = b := rfl
@[simp] theorem State.setVblank_haltCode (b : Bool) : (s.setVblank b).haltCode = s.haltCode := rfl
@[simp] theorem State.setVblank_fault (b : Bool) : (s.setVblank b).fault = s.fault := rfl
@[simp] theorem State.setVblank_ir (b : Bool) : (s.setVblank b).ir = s.ir := rfl
@[simp] theorem State.setVblank_draws (b : Bool) : (s.setVblank b).draws = s.draws := rfl

@[simp] theorem State.setMem_mem (m : Memory) : (s.setMem m).mem = m := rfl
@[simp] theorem State.setMem_display (m : Memory) : (s.setMem m).display = s.display := rfl
@[simp] theorem State.setMem_stack (m : Memory) : (s.setMem m).stack = s.stack := rfl
@[simp] theorem State.setMem_sp (m : Memory) : (s.setMem m).sp = s.sp := rfl
@[simp] theorem State.setMem_v (m : Memory) : (s.setMem m).v = s.v := rfl
@[simp] theorem State.setMem_i (m : Memory) : (s.setMem m).i = s.i := rfl
@[simp] theorem State.setMem_pc (m : Memory) : (s.setMem m).pc = s.pc := rfl
@[simp] theorem State.setMem_dt (m : Memory) : (s.setMem m).dt = s.dt := rfl
@[simp] theorem State.setMem_st (m : Memory) : (s.setMem m).st = s.st := rfl
@[simp] theorem State.setMem_keys (m : Memory) : (s.setMem m).keys = s.keys := rfl
@[simp] theorem State.setMem_vblank (m : Memory) : (s.setMem m).vblank = s.vblank := rfl
@[simp] theorem State.setMem_haltCode (m : Memory) : (s.setMem m).haltCode = s.haltCode := rfl
@[simp] theorem State.setMem_fault (m : Memory) : (s.setMem m).fault = s.fault := rfl
@[simp] theorem State.setMem_ir (m : Memory) : (s.setMem m).ir = s.ir := rfl
@[simp] theorem State.setMem_draws (m : Memory) : (s.setMem m).draws = s.draws := rfl

@[simp] theorem State.setDisplay_mem (d : Vector Byte 256) : (s.setDisplay d).mem = s.mem := rfl
@[simp] theorem State.setDisplay_display (d : Vector Byte 256) : (s.setDisplay d).display = d := rfl
@[simp] theorem State.setDisplay_stack (d : Vector Byte 256) : (s.setDisplay d).stack = s.stack := rfl
@[simp] theorem State.setDisplay_sp (d : Vector Byte 256) : (s.setDisplay d).sp = s.sp := rfl
@[simp] theorem State.setDisplay_v (d : Vector Byte 256) : (s.setDisplay d).v = s.v := rfl
@[simp] theorem State.setDisplay_i (d : Vector Byte 256) : (s.setDisplay d).i = s.i := rfl
@[simp] theorem State.setDisplay_pc (d : Vector Byte 256) : (s.setDisplay d).pc = s.pc := rfl
@[simp] theorem State.setDisplay_dt (d : Vector Byte 256) : (s.setDisplay d).dt = s.dt := rfl
@[simp] theorem State.setDisplay_st (d : Vector Byte 256) : (s.setDisplay d).st = s.st := rfl
@[simp] theorem State.setDisplay_keys (d : Vector Byte 256) : (s.setDisplay d).keys = s.keys := rfl
@[simp] theorem State.setDisplay_vblank (d : Vector Byte 256) : (s.setDisplay d).vblank = s.vblank := rfl
@[simp] theorem State.setDisplay_haltCode (d : Vector Byte 256) : (s.setDisplay d).haltCode = s.haltCode := rfl
@[simp] theorem State.setDisplay_fault (d : Vector Byte 256) : (s.setDisplay d).fault = s.fault := rfl
@[simp] theorem State.setDisplay_ir (d : Vector Byte 256) : (s.setDisplay d).ir = s.ir := rfl
@[simp] theorem State.setDisplay_draws (d : Vector Byte 256) : (s.setDisplay d).draws = s.draws := rfl

@[simp] theorem State.setStack_mem (k : Vector Word 16) (n : Fin 17) : (s.setStack k n).mem = s.mem := rfl
@[simp] theorem State.setStack_display (k : Vector Word 16) (n : Fin 17) : (s.setStack k n).display = s.display := rfl
@[simp] theorem State.setStack_stack (k : Vector Word 16) (n : Fin 17) : (s.setStack k n).stack = k := rfl
@[simp] theorem State.setStack_sp (k : Vector Word 16) (n : Fin 17) : (s.setStack k n).sp = n := rfl
@[simp] theorem State.setStack_v (k : Vector Word 16) (n : Fin 17) : (s.setStack k n).v = s.v := rfl
@[simp] theorem State.setStack_i (k : Vector Word 16) (n : Fin 17) : (s.setStack k n).i = s.i := rfl
@[simp] theorem State.setStack_pc (k : Vector Word 16) (n : Fin 17) : (s.setStack k n).pc = s.pc := rfl
@[simp] theorem State.setStack_dt (k : Vector Word 16) (n : Fin 17) : (s.setStack k n).dt = s.dt := rfl
@[simp] theorem State.setStack_st (k : Vector Word 16) (n : Fin 17) : (s.setStack k n).st = s.st := rfl
@[simp] theorem State.setStack_keys (k : Vector Word 16) (n : Fin 17) : (s.setStack k n).keys = s.keys := rfl
@[simp] theorem State.setStack_vblank (k : Vector Word 16) (n : Fin 17) : (s.setStack k n).vblank = s.vblank := rfl
@[simp] theorem State.setStack_haltCode (k : Vector Word 16) (n : Fin 17) : (s.setStack k n).haltCode = s.haltCode := rfl
@[simp] theorem State.setStack_fault (k : Vector Word 16) (n : Fin 17) : (s.setStack k n).fault = s.fault := rfl
@[simp] theorem State.setStack_ir (k : Vector Word 16) (n : Fin 17) : (s.setStack k n).ir = s.ir := rfl
@[simp] theorem State.setStack_draws (k : Vector Word 16) (n : Fin 17) : (s.setStack k n).draws = s.draws := rfl

@[simp] theorem State.setHalt_mem (c : HaltCode) : (s.setHalt c).mem = s.mem := rfl
@[simp] theorem State.setHalt_display (c : HaltCode) : (s.setHalt c).display = s.display := rfl
@[simp] theorem State.setHalt_stack (c : HaltCode) : (s.setHalt c).stack = s.stack := rfl
@[simp] theorem State.setHalt_sp (c : HaltCode) : (s.setHalt c).sp = s.sp := rfl
@[simp] theorem State.setHalt_v (c : HaltCode) : (s.setHalt c).v = s.v := rfl
@[simp] theorem State.setHalt_i (c : HaltCode) : (s.setHalt c).i = s.i := rfl
@[simp] theorem State.setHalt_pc (c : HaltCode) : (s.setHalt c).pc = s.pc := rfl
@[simp] theorem State.setHalt_dt (c : HaltCode) : (s.setHalt c).dt = s.dt := rfl
@[simp] theorem State.setHalt_st (c : HaltCode) : (s.setHalt c).st = s.st := rfl
@[simp] theorem State.setHalt_keys (c : HaltCode) : (s.setHalt c).keys = s.keys := rfl
@[simp] theorem State.setHalt_vblank (c : HaltCode) : (s.setHalt c).vblank = s.vblank := rfl
@[simp] theorem State.setHalt_haltCode (c : HaltCode) : (s.setHalt c).haltCode = c := rfl
@[simp] theorem State.setHalt_fault (c : HaltCode) : (s.setHalt c).fault = s.fault := rfl
@[simp] theorem State.setHalt_ir (c : HaltCode) : (s.setHalt c).ir = s.ir := rfl
@[simp] theorem State.setHalt_draws (c : HaltCode) : (s.setHalt c).draws = s.draws := rfl

@[simp] theorem State.setFault_mem (c : FaultCode) : (s.setFault c).mem = s.mem := rfl
@[simp] theorem State.setFault_display (c : FaultCode) : (s.setFault c).display = s.display := rfl
@[simp] theorem State.setFault_stack (c : FaultCode) : (s.setFault c).stack = s.stack := rfl
@[simp] theorem State.setFault_sp (c : FaultCode) : (s.setFault c).sp = s.sp := rfl
@[simp] theorem State.setFault_v (c : FaultCode) : (s.setFault c).v = s.v := rfl
@[simp] theorem State.setFault_i (c : FaultCode) : (s.setFault c).i = s.i := rfl
@[simp] theorem State.setFault_pc (c : FaultCode) : (s.setFault c).pc = s.pc := rfl
@[simp] theorem State.setFault_dt (c : FaultCode) : (s.setFault c).dt = s.dt := rfl
@[simp] theorem State.setFault_st (c : FaultCode) : (s.setFault c).st = s.st := rfl
@[simp] theorem State.setFault_keys (c : FaultCode) : (s.setFault c).keys = s.keys := rfl
@[simp] theorem State.setFault_vblank (c : FaultCode) : (s.setFault c).vblank = s.vblank := rfl
@[simp] theorem State.setFault_haltCode (c : FaultCode) : (s.setFault c).haltCode = s.haltCode := rfl
@[simp] theorem State.setFault_fault (c : FaultCode) : (s.setFault c).fault = c := rfl
@[simp] theorem State.setFault_ir (c : FaultCode) : (s.setFault c).ir = s.ir := rfl
@[simp] theorem State.setFault_draws (c : FaultCode) : (s.setFault c).draws = s.draws := rfl

@[simp] theorem State.setIr_mem (op : Word) : (s.setIr op).mem = s.mem := rfl
@[simp] theorem State.setIr_display (op : Word) : (s.setIr op).display = s.display := rfl
@[simp] theorem State.setIr_stack (op : Word) : (s.setIr op).stack = s.stack := rfl
@[simp] theorem State.setIr_sp (op : Word) : (s.setIr op).sp = s.sp := rfl
@[simp] theorem State.setIr_v (op : Word) : (s.setIr op).v = s.v := rfl
@[simp] theorem State.setIr_i (op : Word) : (s.setIr op).i = s.i := rfl
@[simp] theorem State.setIr_pc (op : Word) : (s.setIr op).pc = s.pc := rfl
@[simp] theorem State.setIr_dt (op : Word) : (s.setIr op).dt = s.dt := rfl
@[simp] theorem State.setIr_st (op : Word) : (s.setIr op).st = s.st := rfl
@[simp] theorem State.setIr_keys (op : Word) : (s.setIr op).keys = s.keys := rfl
@[simp] theorem State.setIr_vblank (op : Word) : (s.setIr op).vblank = s.vblank := rfl
@[simp] theorem State.setIr_haltCode (op : Word) : (s.setIr op).haltCode = s.haltCode := rfl
@[simp] theorem State.setIr_fault (op : Word) : (s.setIr op).fault = s.fault := rfl
@[simp] theorem State.setIr_ir (op : Word) : (s.setIr op).ir = op := rfl
@[simp] theorem State.setIr_draws (op : Word) : (s.setIr op).draws = s.draws := rfl

@[simp] theorem State.setDraws_mem (n : Nat) : (s.setDraws n).mem = s.mem := rfl
@[simp] theorem State.setDraws_display (n : Nat) : (s.setDraws n).display = s.display := rfl
@[simp] theorem State.setDraws_stack (n : Nat) : (s.setDraws n).stack = s.stack := rfl
@[simp] theorem State.setDraws_sp (n : Nat) : (s.setDraws n).sp = s.sp := rfl
@[simp] theorem State.setDraws_v (n : Nat) : (s.setDraws n).v = s.v := rfl
@[simp] theorem State.setDraws_i (n : Nat) : (s.setDraws n).i = s.i := rfl
@[simp] theorem State.setDraws_pc (n : Nat) : (s.setDraws n).pc = s.pc := rfl
@[simp] theorem State.setDraws_dt (n : Nat) : (s.setDraws n).dt = s.dt := rfl
@[simp] theorem State.setDraws_st (n : Nat) : (s.setDraws n).st = s.st := rfl
@[simp] theorem State.setDraws_keys (n : Nat) : (s.setDraws n).keys = s.keys := rfl
@[simp] theorem State.setDraws_vblank (n : Nat) : (s.setDraws n).vblank = s.vblank := rfl
@[simp] theorem State.setDraws_haltCode (n : Nat) : (s.setDraws n).haltCode = s.haltCode := rfl
@[simp] theorem State.setDraws_fault (n : Nat) : (s.setDraws n).fault = s.fault := rfl
@[simp] theorem State.setDraws_ir (n : Nat) : (s.setDraws n).ir = s.ir := rfl
@[simp] theorem State.setDraws_draws (n : Nat) : (s.setDraws n).draws = n := rfl

@[simp] theorem State.setFlag_mem (b : Bool) : (s.setFlag b).mem = s.mem := rfl
@[simp] theorem State.setFlag_display (b : Bool) : (s.setFlag b).display = s.display := rfl
@[simp] theorem State.setFlag_stack (b : Bool) : (s.setFlag b).stack = s.stack := rfl
@[simp] theorem State.setFlag_sp (b : Bool) : (s.setFlag b).sp = s.sp := rfl
@[simp] theorem State.setFlag_v (b : Bool) : (s.setFlag b).v = s.v.set flagReg (flagByte b) := rfl
@[simp] theorem State.setFlag_i (b : Bool) : (s.setFlag b).i = s.i := rfl
@[simp] theorem State.setFlag_pc (b : Bool) : (s.setFlag b).pc = s.pc := rfl
@[simp] theorem State.setFlag_dt (b : Bool) : (s.setFlag b).dt = s.dt := rfl
@[simp] theorem State.setFlag_st (b : Bool) : (s.setFlag b).st = s.st := rfl
@[simp] theorem State.setFlag_keys (b : Bool) : (s.setFlag b).keys = s.keys := rfl
@[simp] theorem State.setFlag_vblank (b : Bool) : (s.setFlag b).vblank = s.vblank := rfl
@[simp] theorem State.setFlag_haltCode (b : Bool) : (s.setFlag b).haltCode = s.haltCode := rfl
@[simp] theorem State.setFlag_fault (b : Bool) : (s.setFlag b).fault = s.fault := rfl
@[simp] theorem State.setFlag_ir (b : Bool) : (s.setFlag b).ir = s.ir := rfl
@[simp] theorem State.setFlag_draws (b : Bool) : (s.setFlag b).draws = s.draws := rfl

@[simp] theorem State.store_mem (a : Nat) (bs : List Byte) : (s.store a bs).mem = Memory.writeBytes s.mem a bs := rfl
@[simp] theorem State.store_display (a : Nat) (bs : List Byte) : (s.store a bs).display = s.display := rfl
@[simp] theorem State.store_stack (a : Nat) (bs : List Byte) : (s.store a bs).stack = s.stack := rfl
@[simp] theorem State.store_sp (a : Nat) (bs : List Byte) : (s.store a bs).sp = s.sp := rfl
@[simp] theorem State.store_v (a : Nat) (bs : List Byte) : (s.store a bs).v = s.v := rfl
@[simp] theorem State.store_i (a : Nat) (bs : List Byte) : (s.store a bs).i = s.i := rfl
@[simp] theorem State.store_pc (a : Nat) (bs : List Byte) : (s.store a bs).pc = s.pc := rfl
@[simp] theorem State.store_dt (a : Nat) (bs : List Byte) : (s.store a bs).dt = s.dt := rfl
@[simp] theorem State.store_st (a : Nat) (bs : List Byte) : (s.store a bs).st = s.st := rfl
@[simp] theorem State.store_keys (a : Nat) (bs : List Byte) : (s.store a bs).keys = s.keys := rfl
@[simp] theorem State.store_vblank (a : Nat) (bs : List Byte) : (s.store a bs).vblank = s.vblank := rfl
@[simp] theorem State.store_haltCode (a : Nat) (bs : List Byte) : (s.store a bs).haltCode = s.haltCode := rfl
@[simp] theorem State.store_fault (a : Nat) (bs : List Byte) : (s.store a bs).fault = s.fault := rfl
@[simp] theorem State.store_ir (a : Nat) (bs : List Byte) : (s.store a bs).ir = s.ir := rfl
@[simp] theorem State.store_draws (a : Nat) (bs : List Byte) : (s.store a bs).draws = s.draws := rfl

@[simp] theorem State.setRegFlag_eq (x : Reg) (b : Byte) (f : Bool) :
    s.setRegFlag x b f = (s.setReg x b).setFlag f := rfl

@[simp] theorem State.withRandom_eq (x : Reg) (nn r : Byte) : s.withRandom x nn r = s.setReg x (r &&& nn) := rfl

@[simp] theorem State.fetched_eq : s.fetched = (s.setIr s.fetchWord).setPc (s.pc + 2) := rfl

@[simp] theorem State.reg_eq (x : Reg) : s.reg x = s.v[x] := rfl

@[simp] theorem State.read_eq (a : Nat) : s.read a = Memory.read s.mem a := rfl

@[simp] theorem State.effAddr_eq (k : Nat) : s.effAddr k = s.i.toNat + k := rfl

end

/-- A register after one register is written. -/
theorem getElem_setReg (v : Vector Byte 16) (x y : Reg) (b : Byte) :
    (v.set x b)[y] = if x = y then b else v[y] := by
  rw [Fin.getElem_fin, Fin.getElem_fin, Vector.getElem_set]
  simp only [Fin.ext_iff]

/-- `stopped` says that a latch is set. -/
@[simp] theorem State.stopped_iff (s : State) : s.stopped = true ↔ s.haltCode ≠ .none ∨ s.fault ≠ .none := by
  simp [State.stopped]

/-- `canFetch` says that `pc` is in the window. -/
@[simp] theorem State.canFetch_iff (s : State) :
    s.canFetch = true ↔ 0x200 ≤ s.pc.toNat ∧ s.pc.toNat ≤ 0xFFE := by
  simp [State.canFetch]

end Sys2Proof.Machine
end

