-- ==== Sys2Proof/Laws/Graphics.lean ====
section
/-! SUPPORT. Pixels and the sprite engine: what setting a pixel, and what drawing a bit, a row and a sprite can do. -/

namespace Sys2Proof.Machine

theorem getLsbD_withBit (b : Byte) (k j : Nat) (v : Bool) (hj : j < 8) :
    (withBit b k v).getLsbD j = if j = k then v else b.getLsbD j := by
  unfold withBit
  cases v <;> simp [BitVec.getLsbD_shiftLeft, BitVec.getLsbD_one] <;> grind

theorem pixelBit_lt (px : Fin 64) : pixelBit px < 8 := by unfold pixelBit; omega

theorem pixel_place_inj {px qx : Fin 64} {py qy : Fin 32} (hi : pixelIndex px py = pixelIndex qx qy)
    (hb : pixelBit px = pixelBit qx) : px = qx ∧ py = qy := by
  simp only [pixelIndex, pixelBit, Fin.mk.injEq] at hi hb
  omega

/-- Setting a pixel sets that pixel and no other (R190). -/
theorem pixel_setPixel (d : Vector Byte 256) (px qx : Fin 64) (py qy : Fin 32) (v : Bool) :
    pixel (setPixel d px py v) qx qy = if qx = px ∧ qy = py then v else pixel d qx qy := by
  unfold pixel setPixel
  rw [Fin.getElem_fin, Vector.getElem_set]
  by_cases hi : pixelIndex px py = pixelIndex qx qy
  · rw [if_pos (by rw [hi]), getLsbD_withBit _ _ _ _ (pixelBit_lt qx),
      congrArg (fun j : Fin 256 => d[j]) hi]
    by_cases hb : pixelBit qx = pixelBit px
    · obtain ⟨rfl, rfl⟩ := pixel_place_inj hi hb.symm
      simp
    · rw [if_neg hb, if_neg (fun h => hb (by rw [h.1]))]
  · rw [if_neg (fun h => hi (Fin.ext h)), if_neg (fun h => hi (by rw [h.1, h.2]))]
    rfl

/-- A display is its pixels. -/
theorem display_ext {d e : Vector Byte 256} (h : ∀ px py, pixel d px py = pixel e px py) : d = e := by
  apply Vector.ext
  intro k hk
  apply BitVec.eq_of_getLsbD_eq
  intro j hj
  have := h ⟨k % 8 * 8 + (7 - j), by omega⟩ ⟨k / 8, by omega⟩
  have hi : pixelIndex ⟨k % 8 * 8 + (7 - j), by omega⟩ ⟨k / 8, by omega⟩ = ⟨k, hk⟩ := by
    simp only [pixelIndex, Fin.mk.injEq]; omega
  have hb : pixelBit ⟨k % 8 * 8 + (7 - j), by omega⟩ = j := by simp only [pixelBit]; omega
  simpa [pixel, hi, hb] using this

/-- Everything drawing one bit can do to the pixels: flip the pixel under a 1 bit. -/
theorem drawBit_pixel (c : Canvas) (px py : Nat) (s : Bool) (qx : Fin 64) (qy : Fin 32) :
    pixel (drawBit c px py s).bits qx qy =
      (pixel c.bits qx qy ^^ (decide (qx.val = px ∧ qy.val = py) && s)) := by
  unfold drawBit
  split
  · simp only [pixel_setPixel, Fin.ext_iff]
    split
    · rename_i h h'
      obtain ⟨hx, hy⟩ := h'
      subst hx hy
      simp
    · rename_i h'
      simp [h']
  · rename_i h
    have : ¬ (qx.val = px ∧ qy.val = py) := fun ⟨hx, hy⟩ => h ⟨by omega, by omega⟩
    simp [this]

/-- Everything drawing one bit can do to the collision: a lit pixel under a 1 bit sets it. -/
theorem drawBit_coll (c : Canvas) (px py : Nat) (s : Bool) :
    (drawBit c px py s).coll = true ↔ c.coll = true ∨
      ∃ (qx : Fin 64) (qy : Fin 32), qx.val = px ∧ qy.val = py ∧ s = true ∧ pixel c.bits qx qy = true := by
  unfold drawBit
  split
  · rename_i h
    simp only [Bool.or_eq_true, Bool.and_eq_true]
    constructor
    · rintro (h1 | ⟨h1, h2⟩)
      · exact .inl h1
      · exact .inr ⟨_, _, rfl, rfl, h2, h1⟩
    · rintro (h1 | ⟨qx, qy, rfl, rfl, h1, h2⟩)
      · exact .inl h1
      · exact .inr ⟨h2, h1⟩
  · rename_i h
    constructor
    · exact .inl
    · rintro (h1 | ⟨qx, qy, rfl, rfl, -⟩)
      · exact h1
      · omega

/-- The first `k` columns of a row. -/
theorem drawCols_spec (c : Canvas) (x0 y : Nat) (b : Byte) (k : Nat) :
    (∀ qx qy, pixel ((List.range k).foldl (fun c col => drawBit c (x0 + col) y (b.getLsbD (7 - col))) c).bits qx qy =
      (pixel c.bits qx qy ^^
        (decide (qy.val = y ∧ x0 ≤ qx.val ∧ qx.val < x0 + k) && b.getLsbD (7 - (qx.val - x0))))) ∧
    (((List.range k).foldl (fun c col => drawBit c (x0 + col) y (b.getLsbD (7 - col))) c).coll = true ↔
      c.coll = true ∨ ∃ (qx : Fin 64) (qy : Fin 32), (qy.val = y ∧ x0 ≤ qx.val ∧ qx.val < x0 + k) ∧
        b.getLsbD (7 - (qx.val - x0)) = true ∧ pixel c.bits qx qy = true) := by
  induction k with
  | zero =>
    refine ⟨fun qx qy => ?_, ?_⟩
    · rw [decide_eq_false (by omega)]
      simp
    · constructor
      · exact .inl
      · rintro (h | ⟨qx, qy, h, -⟩)
        · exact h
        · omega
  | succ k ih =>
    rw [List.range_succ, List.foldl_append]
    simp only [List.foldl_cons, List.foldl_nil]
    refine ⟨fun qx qy => ?_, ?_⟩
    · rw [drawBit_pixel, ih.1]
      by_cases h1 : qx.val = x0 + k ∧ qy.val = y
      · have h2 : ¬ (qy.val = y ∧ x0 ≤ qx.val ∧ qx.val < x0 + k) := by omega
        have h3 : qy.val = y ∧ x0 ≤ qx.val ∧ qx.val < x0 + (k + 1) := by omega
        have h4 : qx.val - x0 = k := by omega
        rw [decide_eq_true h1, decide_eq_false h2, decide_eq_true h3, h4]
        simp
      · have h2 : (qy.val = y ∧ x0 ≤ qx.val ∧ qx.val < x0 + k) ↔ (qy.val = y ∧ x0 ≤ qx.val ∧ qx.val < x0 + (k + 1)) := by
          omega
        rw [decide_eq_false h1]
        simp only [h2, Bool.false_and, Bool.xor_false]
    · rw [drawBit_coll, ih.2]
      constructor
      · rintro ((h | ⟨qx, qy, h, h1, h2⟩) | ⟨qx, qy, hx, hy, h1, h2⟩)
        · exact .inl h
        · exact .inr ⟨qx, qy, by omega, h1, h2⟩
        · have h3 : ¬ (qy.val = y ∧ x0 ≤ qx.val ∧ qx.val < x0 + k) := by omega
          have h4 : qx.val - x0 = k := by omega
          rw [ih.1] at h2
          exact .inr ⟨qx, qy, by omega, by rw [h4]; exact h1, by simpa [h3] using h2⟩
      · rintro (h | ⟨qx, qy, h, h1, h2⟩)
        · exact .inl (.inl h)
        · by_cases hk : qx.val = x0 + k
          · have h3 : ¬ (qy.val = y ∧ x0 ≤ qx.val ∧ qx.val < x0 + k) := by omega
            have h4 : qx.val - x0 = k := by omega
            rw [h4] at h1
            exact .inr ⟨qx, qy, hk, h.1, h1, by rw [ih.1]; simpa [h3] using h2⟩
          · exact .inl (.inr ⟨qx, qy, by omega, h1, h2⟩)

/-- Everything drawing a sprite can do: each pixel under a 1 bit of a row is flipped, and the collision is whether one of
them was lit. -/
theorem drawRows_spec (c : Canvas) (x0 y : Nat) (bs : List Byte) :
    (∀ qx qy, pixel (drawRows c x0 y bs).bits qx qy =
      (pixel c.bits qx qy ^^
        (decide (y ≤ qy.val ∧ qy.val < y + bs.length ∧ x0 ≤ qx.val ∧ qx.val < x0 + 8) &&
          (bs[qy.val - y]?.getD 0).getLsbD (7 - (qx.val - x0))))) ∧
    ((drawRows c x0 y bs).coll = true ↔
      c.coll = true ∨ ∃ (qx : Fin 64) (qy : Fin 32),
        (y ≤ qy.val ∧ qy.val < y + bs.length ∧ x0 ≤ qx.val ∧ qx.val < x0 + 8) ∧
        (bs[qy.val - y]?.getD 0).getLsbD (7 - (qx.val - x0)) = true ∧ pixel c.bits qx qy = true) := by
  induction bs generalizing c y with
  | nil =>
    refine ⟨fun qx qy => ?_, ?_⟩
    · simp [drawRows]
    · constructor
      · exact .inl
      · rintro (h | ⟨qx, qy, h, -⟩)
        · exact h
        · simp only [List.length_nil] at h; omega
  | cons b bs ih =>
    have hrow := drawCols_spec c x0 y b 8
    have hlt : (drawRow c x0 y b) = (List.range 8).foldl (fun c col => drawBit c (x0 + col) y (b.getLsbD (7 - col))) c := rfl
    rw [← hlt] at hrow
    obtain ⟨ihp, ihc⟩ := ih (drawRow c x0 y b) (y + 1)
    simp only [drawRows, List.length_cons]
    refine ⟨fun qx qy => ?_, ?_⟩
    · rw [ihp, hrow.1]
      by_cases h0 : qy.val = y
      · have h1 : ¬ (y + 1 ≤ qy.val ∧ qy.val < y + 1 + bs.length ∧ x0 ≤ qx.val ∧ qx.val < x0 + 8) := by omega
        have h2 : (y ≤ qy.val ∧ qy.val < y + (bs.length + 1) ∧ x0 ≤ qx.val ∧ qx.val < x0 + 8) ↔
          (qy.val = y ∧ x0 ≤ qx.val ∧ qx.val < x0 + 8) := by omega
        have h3 : qy.val - y = 0 := by omega
        rw [decide_eq_false h1, h3]
        simp only [h2, Bool.false_and, Bool.xor_false, List.getElem?_cons_zero, Option.getD_some]
      · have h1 : (y + 1 ≤ qy.val ∧ qy.val < y + 1 + bs.length ∧ x0 ≤ qx.val ∧ qx.val < x0 + 8) ↔
          (y ≤ qy.val ∧ qy.val < y + (bs.length + 1) ∧ x0 ≤ qx.val ∧ qx.val < x0 + 8) := by omega
        by_cases h4 : y ≤ qy.val
        · have h3 : qy.val - y = (qy.val - (y + 1)) + 1 := by omega
          rw [decide_eq_false (fun h => h0 h.1), h3]
          simp only [h1, Bool.false_and, Bool.xor_false, List.getElem?_cons_succ]
        · rw [decide_eq_false (fun h => h0 h.1), decide_eq_false (by omega), decide_eq_false (fun h => h4 h.1)]
          simp
    · rw [ihc, hrow.2]
      constructor
      · rintro ((h | ⟨qx, qy, h, h1, h2⟩) | ⟨qx, qy, h, h1, h2⟩)
        · exact .inl h
        · refine .inr ⟨qx, qy, by omega, ?_, h2⟩
          have h3 : qy.val - y = 0 := by omega
          simpa [h3] using h1
        · have h0 : ¬ (qy.val = y ∧ x0 ≤ qx.val ∧ qx.val < x0 + 8) := by omega
          have h3 : qy.val - y = (qy.val - (y + 1)) + 1 := by omega
          rw [hrow.1] at h2
          exact .inr ⟨qx, qy, by omega, by simpa [h3] using h1, by simpa [h0] using h2⟩
      · rintro (h | ⟨qx, qy, h, h1, h2⟩)
        · exact .inl (.inl h)
        · by_cases h0 : qy.val = y
          · have h3 : qy.val - y = 0 := by omega
            exact .inl (.inr ⟨qx, qy, by omega, by simpa [h3] using h1, h2⟩)
          · have h4 : ¬ (qy.val = y ∧ x0 ≤ qx.val ∧ qx.val < x0 + 8) := by omega
            have h3 : qy.val - y = (qy.val - (y + 1)) + 1 := by omega
            refine .inr ⟨qx, qy, by omega, by simpa [h3] using h1, ?_⟩
            rw [hrow.1]
            simpa [h4] using h2

end Sys2Proof.Machine
end

