-- ==== Sys2Proof/Laws/Memory.lean ====
section
/-! SUPPORT. Memory: a read after a write, and the canonical form every operation keeps. -/

namespace Sys2Proof.Machine

theorem Memory.read_insert (m : Memory) (a c : Nat) (b : Byte) :
    Memory.read (Memory.insert m a b) c = if c = a then b else Memory.read m c := by
  induction m with
  | nil => simp [Memory.insert, Memory.read]
  | cons d rest ih =>
    obtain ⟨k, e⟩ := d
    simp only [Memory.insert]
    split <;> (try split) <;> simp only [Memory.read, ih] <;> grind

theorem Memory.read_filter (m : Memory) (a c : Nat) :
    Memory.read (m.filter (fun d => d.1 != a)) c = if c = a then unlisted a else Memory.read m c := by
  induction m with
  | nil => simp only [List.filter_nil, Memory.read]; split <;> simp_all
  | cons d rest ih =>
    obtain ⟨k, e⟩ := d
    by_cases hk : k = a
    · simp only [List.filter_cons, hk, bne_self_eq_false, Bool.false_eq_true, if_false, ih, Memory.read]
      split <;> simp_all
    · simp only [List.filter_cons, bne_iff_ne, ne_eq, hk, not_false_eq_true, if_true, Memory.read, ih]
      grind

/-- Everything a write can do: the byte written is read back, every other byte is as before. -/
@[simp] theorem Memory.read_write (m : Memory) (a c : Nat) (b : Byte) :
    Memory.read (Memory.write m a b) c = if c = a then b else Memory.read m c := by
  unfold Memory.write
  split
  · rename_i h; rw [Memory.read_filter, h]
  · exact Memory.read_insert m a c b

/-- Everything a block of writes can do. -/
theorem Memory.read_writeBytes (m : Memory) (a c : Nat) (bs : List Byte) :
    Memory.read (Memory.writeBytes m a bs) c =
      if h : a ≤ c ∧ c < a + bs.length then bs[c - a] else Memory.read m c := by
  induction bs generalizing m a with
  | nil => simp only [Memory.writeBytes, List.length_nil]; rw [dif_neg (by omega)]
  | cons b bs ih =>
    rw [Memory.writeBytes, ih, Memory.read_write]
    by_cases hc : c = a
    · subst hc
      rw [dif_neg (by omega), if_pos rfl, dif_pos (by simp)]
      simp
    · by_cases h : a + 1 ≤ c ∧ c < a + 1 + bs.length
      · rw [dif_pos h, dif_pos (by simp only [List.length_cons]; omega)]
        have : c - a = (c - (a + 1)) + 1 := by omega
        simp [this]
      · rw [dif_neg h, if_neg hc, dif_neg (by simp only [List.length_cons]; omega)]

theorem Memory.mem_insert {m : Memory} {a : Nat} {b : Byte} {c : Host.Cell} (h : c ∈ Memory.insert m a b) :
    c = (a, b) ∨ c ∈ m := by
  induction m with
  | nil => simpa [Memory.insert] using h
  | cons d rest ih =>
    obtain ⟨k, e⟩ := d
    simp only [Memory.insert] at h
    split at h
    · simpa using h
    · split at h
      · simp only [List.mem_cons] at h ⊢; tauto
      · simp only [List.mem_cons] at h ⊢
        rcases h with h | h
        · tauto
        · rcases ih h with h | h <;> tauto

theorem Memory.insert_sorted {m : Memory} (h : m.Pairwise (fun c d => c.1 < d.1)) (a : Nat) (b : Byte) :
    (Memory.insert m a b).Pairwise (fun c d => c.1 < d.1) := by
  induction m with
  | nil => simp [Memory.insert]
  | cons d rest ih =>
    obtain ⟨k, e⟩ := d
    rw [List.pairwise_cons] at h
    simp only [Memory.insert]
    split
    · rename_i hak
      refine List.pairwise_cons.2 ⟨fun c hc => ?_, List.pairwise_cons.2 h⟩
      rcases List.mem_cons.1 hc with rfl | hc
      · exact hak
      · exact Nat.lt_trans hak (h.1 c hc)
    · split
      · rename_i hak; subst hak; exact List.pairwise_cons.2 h
      · rename_i h1 h2
        refine List.pairwise_cons.2 ⟨fun c hc => ?_, ih h.2⟩
        rcases Memory.mem_insert hc with rfl | hc
        · simp only; omega
        · exact h.1 c hc

/-- A write inside the address space keeps the canonical form. -/
theorem Memory.write_wf {m : Memory} (h : Memory.wf m) {a : Nat} (ha : a < 0x1000) (b : Byte) :
    Memory.wf (Memory.write m a b) := by
  unfold Memory.write
  split
  · exact ⟨h.1.filter _, fun c hc => h.2 c (List.mem_of_mem_filter hc)⟩
  · rename_i hb
    refine ⟨Memory.insert_sorted h.1 a b, fun c hc => ?_⟩
    rcases Memory.mem_insert hc with rfl | hc
    · exact ⟨ha, hb⟩
    · exact h.2 c hc

/-- A block of writes inside the address space keeps the canonical form. -/
theorem Memory.writeBytes_wf {m : Memory} (h : Memory.wf m) {a : Nat} {bs : List Byte}
    (ha : a + bs.length ≤ 0x1000) : Memory.wf (Memory.writeBytes m a bs) := by
  induction bs generalizing m a with
  | nil => exact h
  | cons b bs ih =>
    simp only [List.length_cons] at ha
    exact ih (Memory.write_wf h (by omega) b) (by omega)

/-- A block of writes from `a` up lists no address below what was listed and `a`. -/
theorem Memory.writeBytes_lowest {m : Memory} {l : Nat} (h : ∀ c ∈ m, l ≤ c.1) {a : Nat} (ha : l ≤ a)
    (bs : List Byte) : ∀ c ∈ Memory.writeBytes m a bs, l ≤ c.1 := by
  induction bs generalizing m a with
  | nil => exact h
  | cons b bs ih =>
    refine ih (fun c hc => ?_) (by omega)
    unfold Memory.write at hc
    split at hc
    · exact h c (List.mem_of_mem_filter hc)
    · rcases Memory.mem_insert hc with rfl | hc
      · exact ha
      · exact h c hc

theorem Memory.read_of_lt {m : Memory} {a : Nat} (h : ∀ c ∈ m, a < c.1) : Memory.read m a = unlisted a := by
  induction m with
  | nil => rfl
  | cons d rest ih =>
    obtain ⟨k, e⟩ := d
    have := h (k, e) (by simp)
    rw [Memory.read, if_neg (by simp only at this; omega)]
    exact ih fun c hc => h c (by simp [hc])

theorem Memory.read_of_mem {m : Memory} (h : m.Pairwise (fun c d => c.1 < d.1)) {c : Host.Cell} (hc : c ∈ m) :
    Memory.read m c.1 = c.2 := by
  induction m with
  | nil => simp at hc
  | cons d rest ih =>
    obtain ⟨k, e⟩ := d
    rw [List.pairwise_cons] at h
    rcases List.mem_cons.1 hc with rfl | hc
    · simp [Memory.read]
    · have := h.1 c hc
      rw [Memory.read, if_neg (by simp only at this; omega)]
      exact ih h.2 hc

/-- The canonical form is canonical: two memories in it that read alike are the same list. -/
theorem Memory.ext_of_wf {m m' : Memory} (h : Memory.wf m) (h' : Memory.wf m')
    (hr : ∀ a, Memory.read m a = Memory.read m' a) : m = m' := by
  have hmem : ∀ {p q : Memory}, Memory.wf p → Memory.wf q → (∀ a, Memory.read p a = Memory.read q a) →
      ∀ c ∈ p, c ∈ q := by
    intro p q hp hq hpq c hc
    have h1 := Memory.read_of_mem hp.1 hc
    by_contra hn
    have h2 : Memory.read q c.1 = unlisted c.1 := by
      have hne : ∀ d ∈ q, d.1 ≠ c.1 := fun d hd he => hn (by
        have h3 := Memory.read_of_mem hq.1 hd
        rw [he, ← hpq, h1] at h3
        have : d = c := Prod.ext he h3.symm
        exact this ▸ hd)
      clear hq hpq hn
      induction q with
      | nil => rfl
      | cons d rest ih =>
        obtain ⟨k, e⟩ := d
        have := hne (k, e) (by simp)
        rw [Memory.read, if_neg (fun he => this he.symm)]
        exact ih fun d hd => hne d (by simp [hd])
    rw [hpq, h2] at h1
    exact (hp.2 c hc).2 h1.symm
  have hnd : ∀ {p : Memory}, Memory.wf p → p.Nodup := fun hp => hp.1.imp (fun hlt heq => by simp [heq] at hlt)
  refine List.Perm.eq_of_pairwise (le := fun c d : Host.Cell => c.1 < d.1) ?_ h.1 h'.1
    ((List.perm_ext_iff_of_nodup (hnd h) (hnd h')).2 fun c =>
      ⟨hmem h h' hr c, hmem h' h (fun a => (hr a).symm) c⟩)
  intro a b _ _ hab hba
  omega

/-- Reset's memory is in canonical form. -/
theorem State.reset_mem_wf : Memory.wf State.reset.mem := ⟨List.Pairwise.nil, fun _ h => nomatch h⟩

/-- A step's store keeps the canonical form of the state's memory. -/
theorem State.store_wf {s : State} (h : Memory.wf s.mem) {a : Nat} {bs : List Byte} (ha : a + bs.length ≤ 0x1000) :
    Memory.wf (s.store a bs).mem := Memory.writeBytes_wf h ha

end Sys2Proof.Machine
end

