-- ==== Sys2Proof/Laws/Ops.lean ====
section
/-! SUPPORT. For each shared operation, what it answers; later proofs cite these and do not unfold the operation. -/

namespace Sys2Proof.Machine

/-! ### Outcomes -/

@[simp] theorem raiseHalt_next {c : HaltCode} {s t : State} : raiseHalt c s = .next t ↔ t = s.setHalt c := by
  simp [raiseHalt, eq_comm]

@[simp] theorem raiseFault_next {c : FaultCode} {s t : State} : raiseFault c s = .next t ↔ t = s.setFault c := by
  simp [raiseFault, eq_comm]

@[simp] theorem retry_next {s t : State} : retry s = .next t ↔ t = s.setPc (s.pc - 2) := by
  simp [retry, eq_comm]

@[simp] theorem jump_next {a : Word} {s t : State} : jump a s = .next t ↔ t = s.setPc a := by
  simp [jump, eq_comm]

@[simp] theorem skipIf_next {c : Bool} {s t : State} :
    skipIf c s = .next t ↔ t = if c then s.setPc (s.pc + 2) else s := by
  simp [skipIf, eq_comm]

/-- A checked instruction either records the fault it found or goes on. -/
theorem unlessFault_cases {check : Option FaultCode} {s t : State} {go : Result}
    (h : unlessFault check s go = .next t) :
    (∃ c, check = some c ∧ t = s.setFault c) ∨ (check = none ∧ go = .next t) := by
  cases check with
  | none => exact .inr ⟨rfl, h⟩
  | some c => exact .inl ⟨c, rfl, raiseFault_next.1 h⟩

@[simp] theorem unlessFault_none (s : State) (go : Result) : unlessFault none s go = go := rfl

@[simp] theorem unlessFault_some (c : FaultCode) (s : State) (go : Result) :
    unlessFault (some c) s go = .next (s.setFault c) := rfl

/-! ### The stack -/

theorem State.push_none {s : State} : s.push = none ↔ s.sp.val = 16 := by
  have := s.sp.isLt
  unfold State.push
  split <;> simp <;> omega

/-- Everything a push can do. -/
theorem State.push_some {s t : State} (h : s.push = some t) :
    s.sp.val < 16 ∧ t.sp.val = s.sp.val + 1 ∧ t = s.setStack t.stack t.sp ∧
      ∀ k : Fin 16, t.stack[k] = if k.val = s.sp.val then s.pc else s.stack[k] := by
  unfold State.push at h
  split at h
  · rename_i hlt
    obtain rfl := Option.some.inj h
    refine ⟨hlt, rfl, rfl, fun k => ?_⟩
    rw [State.setStack_stack, Fin.getElem_fin, Vector.getElem_set]
    simp only [eq_comm, Fin.getElem_fin]
  · cases h

theorem State.pop_none {s : State} : s.pop = none ↔ s.sp.val = 0 := by
  unfold State.pop
  split <;> simp_all

/-- Everything a pop can do. -/
theorem State.pop_some {s t : State} {a : Word} (h : s.pop = some (a, t)) :
    0 < s.sp.val ∧ t.sp.val + 1 = s.sp.val ∧ t = s.setStack s.stack t.sp ∧
      ∃ k : Fin 16, k.val = t.sp.val ∧ a = s.stack[k] := by
  unfold State.pop at h
  split at h
  · cases h
  · rename_i hne
    have := s.sp.isLt
    obtain ⟨rfl, rfl⟩ := Prod.mk.inj (Option.some.inj h)
    refine ⟨by omega, ?_, rfl, ⟨s.sp.val - 1, by omega⟩, ?_, rfl⟩
    · simp only [State.setStack_sp]; omega
    · simp only [State.setStack_sp]

/-! ### Checks and operands -/

theorem State.checkRange_eq (s : State) (count : Nat) :
    s.checkRange count = if 1 ≤ count ∧ 0x1000 < s.i.toNat + count then some .memRange else none := by
  have h : (1 ≤ count ∧ 0xFFF < s.i.toNat + (count - 1)) ↔ (1 ≤ count ∧ 0x1000 < s.i.toNat + count) := by omega
  simp only [State.checkRange, State.effAddr_eq, h]

theorem State.checkStore_eq (s : State) {count : Nat} (hc : 1 ≤ count) :
    s.checkStore count =
      if 0x1000 < s.i.toNat + count then some .memRange
      else if s.i.toNat < 0x200 then some .writeProtect else none := by
  unfold State.checkStore
  rw [State.checkRange_eq]
  by_cases h : 0x1000 < s.i.toNat + count
  · simp [h, hc]
  · simp [h]

theorem State.checkKey_eq (s : State) (x : Reg) :
    s.checkKey x = if 15 < s.v[x].toNat then some .keyRange else none := rfl

/-- Everything the least held key is: held, and no lower key is held. -/
theorem leastKey_spec {keys : Word} (h : keys ≠ 0) :
    ∃ k : Fin 16, (leastKey keys).toNat = k.val ∧ keys.getLsbD k.val = true ∧
      ∀ j, j < k.val → keys.getLsbD j = false := by
  unfold leastKey
  cases hf : (List.range 16).find? (fun k => keys.getLsbD k) with
  | none =>
    exfalso
    apply h
    rw [List.find?_eq_none] at hf
    apply BitVec.eq_of_getLsbD_eq
    intro j hj
    have := hf j (List.mem_range.2 hj)
    simpa using this
  | some k =>
    have h1 := List.mem_range.1 (List.mem_of_find?_eq_some hf)
    have h2 := List.find?_some hf
    obtain ⟨-, as, bs, hsplit, hbefore⟩ := List.find?_eq_some_iff_append.1 hf
    refine ⟨⟨k, h1⟩, ?_, h2, fun j hj => ?_⟩
    · simp only [Option.getD_some, BitVec.toNat_ofNat]; omega
    · have hlen : as.length = k := by
        have hk : (List.range 16)[as.length]? = some k := by rw [hsplit]; simp
        simpa using (List.getElem?_eq_some_iff.1 hk).2
      have hj' : j < k := hj
      have hj2 : j ∈ as := by
        have : (List.range 16)[j]? = some j := by rw [List.getElem?_range (by omega)]
        rw [hsplit, List.getElem?_append_left (by omega)] at this
        exact List.mem_of_getElem? this
      simpa using hbefore j hj2

theorem State.regsUpTo_length (s : State) (x : Reg) : (s.regsUpTo x).length = x.val + 1 := by
  have := x.isLt
  simp only [State.regsUpTo, List.length_take, Vector.length_toList]; omega

theorem State.regsUpTo_get (s : State) (x : Reg) (k : Nat) (hk : k < (s.regsUpTo x).length) :
    (s.regsUpTo x)[k] = s.v[k]'(by have := s.regsUpTo_length x; omega) := by
  simp [State.regsUpTo]

theorem State.loadedRegs_get (s : State) (x k : Reg) :
    (s.loadedRegs x)[k] = if k ≤ x then s.read (s.i.toNat + k.val) else s.v[k] := by
  rw [Fin.getElem_fin, State.loadedRegs, Vector.getElem_ofFn]
  rfl

theorem State.spriteRows_length (s : State) (n : Nat) : (s.spriteRows n).length = n := by simp [State.spriteRows]

theorem State.spriteRows_get (s : State) (n k : Nat) (hk : k < n) :
    (s.spriteRows n)[k]? = some (s.read (s.i.toNat + k)) := by simp [State.spriteRows, hk]

/-- Everything a proceeding draw does to the pixels (R194). -/
theorem State.drawn_pixel (s : State) (x y : Reg) (n : Nibble) (px : Fin 64) (py : Fin 32) :
    pixel (s.drawn x y n).bits px py = (pixel s.display px py ^^ spriteBit s x y n px py) := by
  unfold State.drawn spriteBit
  rw [(drawRows_spec _ _ _ _).1, State.spriteRows_length]
  congr 1
  rw [Bool.eq_iff_iff, Bool.and_eq_true, Bool.and_eq_true, decide_eq_true_eq, decide_eq_true_eq]
  simp only [State.reg_eq]
  constructor
  · rintro ⟨h, h1⟩
    rw [State.spriteRows_get _ _ _ (by omega), Option.getD_some] at h1
    exact ⟨by omega, h1⟩
  · rintro ⟨h, h1⟩
    refine ⟨by omega, ?_⟩
    rw [State.spriteRows_get _ _ _ (by omega), Option.getD_some]
    exact h1

/-- Everything a proceeding draw reports (R195). -/
theorem State.drawn_coll (s : State) (x y : Reg) (n : Nibble) :
    (s.drawn x y n).coll = true ↔ erases s x y n := by
  unfold State.drawn erases spriteBit
  rw [(drawRows_spec _ _ _ _).2, State.spriteRows_length]
  simp only [State.reg_eq, Bool.false_eq_true, false_or, Bool.and_eq_true, decide_eq_true_eq]
  constructor
  · rintro ⟨px, py, h, h1, h2⟩
    rw [State.spriteRows_get _ _ _ (by omega), Option.getD_some] at h1
    exact ⟨px, py, ⟨by omega, h1⟩, h2⟩
  · rintro ⟨px, py, ⟨h, h1⟩, h2⟩
    refine ⟨px, py, by omega, ?_, h2⟩
    rw [State.spriteRows_get _ _ _ (by omega), Option.getD_some]
    exact h1

/-! ### Flags -/

@[simp] theorem flagByte_true : flagByte true = 1 := rfl

@[simp] theorem flagByte_false : flagByte false = 0 := rfl

/-- The registers after a result and a flag are written: the flag replaces the result when the destination is V[0xF]. -/
theorem State.setRegFlag_get (s : State) (x k : Reg) (b : Byte) (f : Bool) :
    (s.setRegFlag x b f).v[k] = if k = 15 then flagByte f else if k = x then b else s.v[k] := by
  simp only [State.setRegFlag_eq, State.setFlag_v, State.setReg_v, getElem_setReg]
  grind

end Sys2Proof.Machine
end

