-- ==== Sys2Proof/Laws/PerInstr.lean ====
section
/-! SUPPORT. The family `EncodingRow`: every instruction's word has the fixed digits of its row of R95
(30_encoding.md). -/

namespace Sys2Proof.Laws.EncodingRow

/-- Hexadecimal digit `k` of a word, digit 0 the least significant (R92). -/
def digit (w : Word) (k : Nat) : Nat := w.toNat / 16 ^ k % 16

/-- The digits that the pattern of R95 fixes: their places and values. -/
def fixedDigits : Instr → List (Nat × Nat)
  | .cls => [(3, 0x0), (2, 0x0), (1, 0xE), (0, 0x0)]
  | .ret => [(3, 0x0), (2, 0x0), (1, 0xE), (0, 0xE)]
  | .sys _ => [(3, 0x0)]
  | .jp _ => [(3, 0x1)]
  | .call _ => [(3, 0x2)]
  | .seImm _ _ => [(3, 0x3)]
  | .sneImm _ _ => [(3, 0x4)]
  | .seReg _ _ _ => [(3, 0x5)]
  | .ldImm _ _ => [(3, 0x6)]
  | .addImm _ _ => [(3, 0x7)]
  | .ldReg _ _ => [(3, 0x8), (0, 0x0)]
  | .orReg _ _ => [(3, 0x8), (0, 0x1)]
  | .andReg _ _ => [(3, 0x8), (0, 0x2)]
  | .xorReg _ _ => [(3, 0x8), (0, 0x3)]
  | .addReg _ _ => [(3, 0x8), (0, 0x4)]
  | .subReg _ _ => [(3, 0x8), (0, 0x5)]
  | .shrReg _ _ => [(3, 0x8), (0, 0x6)]
  | .subnReg _ _ => [(3, 0x8), (0, 0x7)]
  | .shlReg _ _ => [(3, 0x8), (0, 0xE)]
  | .sneReg _ _ _ => [(3, 0x9)]
  | .ldI _ => [(3, 0xA)]
  | .jpV0 _ => [(3, 0xB)]
  | .rnd _ _ => [(3, 0xC)]
  | .drw _ _ _ => [(3, 0xD)]
  | .skp _ => [(3, 0xE), (1, 0x9), (0, 0xE)]
  | .sknp _ => [(3, 0xE), (1, 0xA), (0, 0x1)]
  | .ldVxDt _ => [(3, 0xF), (1, 0x0), (0, 0x7)]
  | .ldVxK _ => [(3, 0xF), (1, 0x0), (0, 0xA)]
  | .ldDtVx _ => [(3, 0xF), (1, 0x1), (0, 0x5)]
  | .ldStVx _ => [(3, 0xF), (1, 0x1), (0, 0x8)]
  | .addI _ => [(3, 0xF), (1, 0x1), (0, 0xE)]
  | .ldF _ => [(3, 0xF), (1, 0x2), (0, 0x9)]
  | .ldB _ => [(3, 0xF), (1, 0x3), (0, 0x3)]
  | .storeRegs _ => [(3, 0xF), (1, 0x5), (0, 0x5)]
  | .loadRegs _ => [(3, 0xF), (1, 0x6), (0, 0x5)]

/-! The shapes of R92, each with its fixed digits. -/

theorem rowA {f : Nat} (hf : f < 16) (nnn : Addr) : ∀ d ∈ [(3, f)], digit (shapeA f nnn) d.1 = d.2 := by
  have := nnn.isLt
  simp only [List.forall_mem_singleton, digit, shapeA_toNat hf]; omega

theorem rowRI {f : Nat} (hf : f < 16) (x : Reg) (nn : Byte) :
    ∀ d ∈ [(3, f)], digit (shapeRI f x nn) d.1 = d.2 := by
  have := x.isLt
  have := nn.isLt
  simp only [List.forall_mem_singleton, digit, shapeRI_toNat hf]; omega

theorem rowRRN {f : Nat} (hf : f < 16) (x y : Reg) (n : Nibble) :
    ∀ d ∈ [(3, f)], digit (shapeRRN f x y n) d.1 = d.2 := by
  have := x.isLt
  have := y.isLt
  have := n.isLt
  simp only [List.forall_mem_singleton, digit, shapeRRN_toNat hf]; omega

theorem rowRRD {f : Nat} (hf : f < 16) (x y : Reg) (n : Nibble) :
    ∀ d ∈ [(3, f), (0, n.toNat)], digit (shapeRRN f x y n) d.1 = d.2 := by
  have := x.isLt
  have := y.isLt
  have := n.isLt
  simp only [List.forall_mem_cons, digit, shapeRRN_toNat hf, List.not_mem_nil, false_imp_iff, implies_true, and_true,
    pow_zero, Nat.div_one]
  omega

theorem rowRDD {f : Nat} (hf : f < 16) (x : Reg) (nn : Byte) :
    ∀ d ∈ [(3, f), (1, nn.toNat / 16), (0, nn.toNat % 16)], digit (shapeRI f x nn) d.1 = d.2 := by
  have := x.isLt
  have := nn.isLt
  simp only [List.forall_mem_cons, digit, shapeRI_toNat hf, List.not_mem_nil, false_imp_iff, implies_true, and_true,
    pow_zero, pow_one, Nat.div_one]
  omega

/-- The word of the instruction has the fixed digits of its row. -/
def Statement (i : Instr) : Prop := ∀ d ∈ fixedDigits i, digit (encode i) d.1 = d.2

theorem cls : Statement .cls := by unfold Statement; decide

theorem ret : Statement .ret := by unfold Statement; decide

theorem sys (nnn : Addr) : Statement (.sys nnn) := rowA (by decide) nnn

theorem jp (nnn : Addr) : Statement (.jp nnn) := rowA (by decide) nnn

theorem call (nnn : Addr) : Statement (.call nnn) := rowA (by decide) nnn

theorem seImm (x : Reg) (nn : Byte) : Statement (.seImm x nn) := rowRI (by decide) x nn

theorem sneImm (x : Reg) (nn : Byte) : Statement (.sneImm x nn) := rowRI (by decide) x nn

theorem seReg (x y : Reg) (n : Nibble) : Statement (.seReg x y n) := rowRRN (by decide) x y n

theorem ldImm (x : Reg) (nn : Byte) : Statement (.ldImm x nn) := rowRI (by decide) x nn

theorem addImm (x : Reg) (nn : Byte) : Statement (.addImm x nn) := rowRI (by decide) x nn

theorem ldReg (x y : Reg) : Statement (.ldReg x y) := rowRRD (by decide) x y 0x0

theorem orReg (x y : Reg) : Statement (.orReg x y) := rowRRD (by decide) x y 0x1

theorem andReg (x y : Reg) : Statement (.andReg x y) := rowRRD (by decide) x y 0x2

theorem xorReg (x y : Reg) : Statement (.xorReg x y) := rowRRD (by decide) x y 0x3

theorem addReg (x y : Reg) : Statement (.addReg x y) := rowRRD (by decide) x y 0x4

theorem subReg (x y : Reg) : Statement (.subReg x y) := rowRRD (by decide) x y 0x5

theorem shrReg (x y : Reg) : Statement (.shrReg x y) := rowRRD (by decide) x y 0x6

theorem subnReg (x y : Reg) : Statement (.subnReg x y) := rowRRD (by decide) x y 0x7

theorem shlReg (x y : Reg) : Statement (.shlReg x y) := rowRRD (by decide) x y 0xE

theorem sneReg (x y : Reg) (n : Nibble) : Statement (.sneReg x y n) := rowRRN (by decide) x y n

theorem ldI (nnn : Addr) : Statement (.ldI nnn) := rowA (by decide) nnn

theorem jpV0 (nnn : Addr) : Statement (.jpV0 nnn) := rowA (by decide) nnn

theorem rnd (x : Reg) (nn : Byte) : Statement (.rnd x nn) := rowRI (by decide) x nn

theorem drw (x y : Reg) (n : Nibble) : Statement (.drw x y n) := rowRRN (by decide) x y n

theorem skp (x : Reg) : Statement (.skp x) := rowRDD (by decide) x 0x9E

theorem sknp (x : Reg) : Statement (.sknp x) := rowRDD (by decide) x 0xA1

theorem ldVxDt (x : Reg) : Statement (.ldVxDt x) := rowRDD (by decide) x 0x07

theorem ldVxK (x : Reg) : Statement (.ldVxK x) := rowRDD (by decide) x 0x0A

theorem ldDtVx (x : Reg) : Statement (.ldDtVx x) := rowRDD (by decide) x 0x15

theorem ldStVx (x : Reg) : Statement (.ldStVx x) := rowRDD (by decide) x 0x18

theorem addI (x : Reg) : Statement (.addI x) := rowRDD (by decide) x 0x1E

theorem ldF (x : Reg) : Statement (.ldF x) := rowRDD (by decide) x 0x29

theorem ldB (x : Reg) : Statement (.ldB x) := rowRDD (by decide) x 0x33

theorem storeRegs (x : Reg) : Statement (.storeRegs x) := rowRDD (by decide) x 0x55

theorem loadRegs (x : Reg) : Statement (.loadRegs x) := rowRDD (by decide) x 0x65

end Sys2Proof.Laws.EncodingRow
end

