-- ==== Sys2Proof/Laws/Step.lean ====
section
/-! SUPPORT. What STEP can do, said once, and that the host's placed instruction is the one STEP runs. -/

namespace Sys2Proof.Machine

/-- Everything STEP can do. -/
theorem step_cases (s : State) :
    (¬ Running s ∧ step s = .next s) ∨
    (Running s ∧ ¬ InWindow s ∧ step s = .next (s.setFault .pcRange)) ∨
    (Running s ∧ InWindow s ∧ ∃ i, decodeWord s.fetchWord = .ok i ∧ step s = exec i s.fetched) ∨
    (Running s ∧ InWindow s ∧ (∃ e, decodeWord s.fetchWord = .error e) ∧
      step s = .next (s.fetched.setHalt .unknownInstruction)) := by
  unfold step
  by_cases hs : s.stopped = true
  · rw [if_pos hs]
    rw [State.stopped_iff] at hs
    exact .inl ⟨by unfold Running; tauto, rfl⟩
  · rw [if_neg hs]
    rw [State.stopped_iff] at hs
    have hr : Running s := by unfold Running; tauto
    by_cases hw : s.canFetch = true
    · rw [if_pos hw]
      rw [State.canFetch_iff] at hw
      simp only [State.fetchBytes, decode_cons_cons]
      have hf : joinBytes (s.read s.pc.toNat) (s.read (s.pc.toNat + 1)) = s.fetchWord := rfl
      rw [hf]
      cases hd : decodeWord s.fetchWord with
      | ok i => exact .inr (.inr (.inl ⟨hr, hw, i, rfl, rfl⟩))
      | error e => exact .inr (.inr (.inr ⟨hr, hw, ⟨e, rfl⟩, rfl⟩))
    · rw [if_neg hw]
      rw [State.canFetch_iff] at hw
      exact .inr (.inl ⟨hr, hw, rfl⟩)

/-- After an instruction is placed by the host, STEP may fetch, and fetches that word. -/
theorem withFetchWord_fetch (s : State) (w : Nat) :
    Running (s.withFetchWord 16 w) ∧ InWindow (s.withFetchWord 16 w) ∧
      (s.withFetchWord 16 w).fetchWord = BitVec.ofNat 16 w := by
  refine ⟨⟨rfl, rfl⟩, ?_, ?_⟩
  · simp only [State.withFetchWord, InWindow, State.store_pc, State.setPc_pc]
    split
    · rename_i h; exact (State.canFetch_iff s).1 h
    · simp
  · simp only [State.fetchWord, State.withFetchWord, State.read_eq, State.store_mem, State.store_pc,
      Memory.read_writeBytes]
    rw [dif_pos (by simp), dif_pos (by simp)]
    simp only [Nat.sub_self, List.getElem_cons_zero, Nat.add_sub_cancel_left, List.getElem_cons_succ,
      joinBytes_split]
    apply BitVec.eq_of_toNat_eq
    simp

end Sys2Proof.Machine
end

