-- ==== Sys2Proof/Tests/Slice0.lean ====
section
/-! SUPPORT. The model's own tests: ill-formed terms refused, words written out from R95, single steps whose expected
results are the spec's vectors (95_test_vectors.md; the vector is named at each test), and for each statement of the
certificate that has hypotheses a state that meets them. -/

namespace Sys2Proof.Tests

open Sys2Proof.Machine

/-! ### Helpers -/

/-- Look at a next state. -/
def look {α : Type} (f : State → α) : Result → Option α
  | .next t => some (f t)
  | _ => none

/-- The reset state with some registers, `I` and `vblank` given. -/
def start (vs : List (Reg × Byte)) (i : Word) (vblank : Bool) : State :=
  ((vs.foldl (fun s p => s.setReg p.1 p.2) State.reset).setI i).setVblank vblank

/-- One STEP with the word where STEP fetches. -/
def one (s : State) (w : Nat) : Result := step (s.withFetchWord 16 w)

/-! ### Well-formedness (R97): the two words of family 0 that are no SYS -/

theorem test_sys_0E0_ill_formed : (Instr.sys 0x0E0).wellFormed = false := by decide

theorem test_sys_0EE_ill_formed : (Instr.sys 0x0EE).wellFormed = false := by decide

/-! ### Decoding: words written out from the patterns of R95 -/

theorem test_decode_family0 :
    decodeTableWord 16 0x00E0 = some .cls ∧ decodeTableWord 16 0x00EE = some .ret ∧
    decodeTableWord 16 0x01E0 = some (.sys 0x1E0) := by decide

theorem test_decode_addresses :
    decodeTableWord 16 0x1ABC = some (.jp 0xABC) ∧ decodeTableWord 16 0x220E = some (.call 0x20E) ∧
    decodeTableWord 16 0xA20C = some (.ldI 0x20C) ∧ decodeTableWord 16 0xB2FF = some (.jpV0 0x2FF) := by decide

theorem test_decode_immediates :
    decodeTableWord 16 0x3105 = some (.seImm 1 0x05) ∧ decodeTableWord 16 0x4A7B = some (.sneImm 0xA 0x7B) ∧
    decodeTableWord 16 0x6F12 = some (.ldImm 0xF 0x12) ∧ decodeTableWord 16 0x71FF = some (.addImm 1 0xFF) ∧
    decodeTableWord 16 0xCF0F = some (.rnd 0xF 0x0F) := by decide

theorem test_decode_register_skips :
    decodeTableWord 16 0x5340 = some (.seReg 3 4 0) ∧ decodeTableWord 16 0x912F = some (.sneReg 1 2 0xF) := by decide

theorem test_decode_family8 :
    decodeTableWord 16 0x8120 = some (.ldReg 1 2) ∧ decodeTableWord 16 0x8121 = some (.orReg 1 2) ∧
    decodeTableWord 16 0x8122 = some (.andReg 1 2) ∧ decodeTableWord 16 0x8123 = some (.xorReg 1 2) ∧
    decodeTableWord 16 0x8124 = some (.addReg 1 2) ∧ decodeTableWord 16 0x8125 = some (.subReg 1 2) ∧
    decodeTableWord 16 0x8126 = some (.shrReg 1 2) ∧ decodeTableWord 16 0x8127 = some (.subnReg 1 2) ∧
    decodeTableWord 16 0x812E = some (.shlReg 1 2) := by decide

theorem test_decode_draw_and_keys :
    decodeTableWord 16 0xD123 = some (.drw 1 2 3) ∧ decodeTableWord 16 0xE39E = some (.skp 3) ∧
    decodeTableWord 16 0xE3A1 = some (.sknp 3) := by decide

theorem test_decode_familyF :
    decodeTableWord 16 0xF107 = some (.ldVxDt 1) ∧ decodeTableWord 16 0xF50A = some (.ldVxK 5) ∧
    decodeTableWord 16 0xF215 = some (.ldDtVx 2) ∧ decodeTableWord 16 0xF318 = some (.ldStVx 3) ∧
    decodeTableWord 16 0xF41E = some (.addI 4) ∧ decodeTableWord 16 0xF629 = some (.ldF 6) ∧
    decodeTableWord 16 0xF733 = some (.ldB 7) ∧ decodeTableWord 16 0xF255 = some (.storeRegs 2) ∧
    decodeTableWord 16 0xF465 = some (.loadRegs 4) := by decide

/-- ST-7, ST-8, ST-9. -/
theorem test_decode_unknown :
    decodeTableWord 16 0x812F = none ∧ decodeTableWord 16 0xE1A2 = none ∧ decodeTableWord 16 0xF175 = none := by decide

/-! ### STEP -/

/-- ST-1, the end: `ir` is the big-endian word. -/
theorem test_step_fetch : look (fun t => (t.ir, t.pc)) (one State.reset 0x1234) = some (0x1234, 0x234) := by decide

/-- ST-2. -/
theorem test_step_halted :
    look (fun t => (t.ir, t.pc)) (step { State.reset with haltCode := .unknownInstruction, pc := 0x202 }) =
      some (0, 0x202) := by decide

/-- ST-4, ST-5. -/
theorem test_step_window :
    look (fun t => (t.fault, t.pc)) (step { State.reset with pc := 0x1FE }) = some (.pcRange, 0x1FE) ∧
    look (fun t => (t.fault, t.pc)) (step { State.reset with pc := 0xFFF }) = some (.pcRange, 0xFFF) := by decide

/-- ST-6. -/
theorem test_step_last_window :
    look (fun t => (t.v[(1 : Reg)], t.pc)) (one { State.reset with pc := 0xFFE } 0x6107) = some (7, 0x1000) := by decide

/-- ST-7. -/
theorem test_step_unknown :
    look (fun t => (t.haltCode, t.pc, t.ir)) (one State.reset 0x8008) =
      some (.unknownInstruction, 0x202, 0x8008) := by decide

/-! ### Control flow -/

/-- T1. -/
theorem test_cls :
    look (fun t => (t.display[(0 : Fin 256)], t.display[(255 : Fin 256)], t.vblank, t.v[(15 : Reg)]))
      (one { start [(15, 9)] 0 true with display := Vector.replicate 256 0xFF } 0x00E0) =
      some (0, 0, true, 9) := by decide

/-- T2. -/
theorem test_ret :
    look (fun t => (t.pc, t.sp, t.stack[(1 : Fin 16)]))
      (one { State.reset with pc := 0x400, sp := 2, stack := (Vector.replicate 16 0x222).set 1 0x345 } 0x00EE) =
      some (0x345, 1, 0x345) := by decide

/-- T3. -/
theorem test_ret_underflow :
    look (fun t => (t.haltCode, t.sp, t.pc)) (one State.reset 0x00EE) = some (.stackUnderflow, 0, 0x202) := by decide

/-- T4b. -/
theorem test_sys :
    look (fun t => (t.display[(0 : Fin 256)], t.pc))
      (one { State.reset with display := Vector.replicate 256 0xFF } 0x01E0) = some (0xFF, 0x202) := by decide

/-- T5a. -/
theorem test_jp : look (fun t => t.pc) (one State.reset 0x1ABC) = some 0xABC := by decide

/-- T6. -/
theorem test_call :
    look (fun t => (t.stack[(0 : Fin 16)], t.sp, t.pc)) (one { State.reset with pc := 0xFFE } 0x2300) =
      some (0x1000, 1, 0x300) := by decide

/-- T7. -/
theorem test_call_overflow :
    look (fun t => (t.haltCode, t.sp, t.pc, t.stack[(15 : Fin 16)]))
      (one { State.reset with sp := 16, stack := Vector.replicate 16 0x111 } 0x2300) =
      some (.stackOverflow, 16, 0x202, 0x111) := by decide

/-- T8a, T8b. -/
theorem test_seImm :
    look (fun t => t.pc) (one (start [(1, 5)] 0 false) 0x3105) = some 0x204 ∧
    look (fun t => t.pc) (one (start [(1, 6)] 0 false) 0x3105) = some 0x202 := by decide

/-- T8c, T8d. -/
theorem test_sneImm :
    look (fun t => t.pc) (one (start [(1, 5)] 0 false) 0x4105) = some 0x202 ∧
    look (fun t => t.pc) (one (start [(1, 6)] 0 false) 0x4105) = some 0x204 := by decide

/-- T8f, T8g. -/
theorem test_seReg :
    look (fun t => t.pc) (one (start [(1, 4), (2, 4)] 0 false) 0x5121) = some 0x204 ∧
    look (fun t => t.pc) (one (start [(1, 4), (2, 5)] 0 false) 0x5120) = some 0x202 := by decide

/-- T8h, T8i. -/
theorem test_sneReg :
    look (fun t => t.pc) (one State.reset 0x9330) = some 0x202 ∧
    look (fun t => t.pc) (one (start [(1, 1), (2, 2)] 0 false) 0x912F) = some 0x204 := by decide

/-- T10a: no mask. -/
theorem test_jpV0 : look (fun t => t.pc) (one (start [(0, 0xFF)] 0 false) 0xBFFF) = some 0x10FE := by decide

/-! ### Arithmetic and logic -/

/-- What an arithmetic test looks at: V[1], V[2], V[0xF]. -/
def alu : Result → Option (Byte × Byte × Byte) := look fun t => (t.v[(1 : Reg)], t.v[(2 : Reg)], t.v[(15 : Reg)])

/-- A1. -/
theorem test_ldImm : alu (one State.reset 0x6F12) = some (0, 0, 0x12) := by decide

/-- A2, A3. -/
theorem test_addImm :
    alu (one (start [(15, 1)] 0 false) 0x7FFF) = some (0, 0, 0) ∧
    alu (one (start [(1, 0xFF), (15, 1)] 0 false) 0x7102) = some (1, 0, 1) := by decide

/-- A4. -/
theorem test_ldReg : alu (one (start [(1, 7)] 0 false) 0x8F10) = some (7, 0, 7) := by decide

/-- A5 and S4. -/
theorem test_orReg :
    alu (one (start [(1, 0x55), (15, 0xAA)] 0 false) 0x8F11) = some (0x55, 0, 0) ∧
    alu (one (start [(1, 0x0C), (2, 0x0A), (15, 1)] 0 false) 0x8121) = some (0x0E, 0x0A, 0) := by decide

/-- S4. -/
theorem test_andReg :
    alu (one (start [(1, 0x0C), (2, 0x0A), (15, 1)] 0 false) 0x8122) = some (0x08, 0x0A, 0) := by decide

/-- S4. -/
theorem test_xorReg :
    alu (one (start [(1, 0x0C), (2, 0x0A), (15, 1)] 0 false) 0x8123) = some (0x06, 0x0A, 0) := by decide

/-- A8, A9. -/
theorem test_addReg :
    alu (one (start [(1, 0xFF), (2, 1)] 0 false) 0x8124) = some (0, 1, 1) ∧
    alu (one (start [(1, 1), (2, 1), (15, 1)] 0 false) 0x8124) = some (2, 1, 0) := by decide

/-- A12: the flag register as the source. -/
theorem test_addReg_flag_source :
    alu (one (start [(1, 0xFF), (15, 1)] 0 false) 0x81F4) = some (0, 0, 1) := by decide

/-- A14, A15. -/
theorem test_subReg :
    alu (one (start [(1, 9), (2, 9)] 0 false) 0x8125) = some (0, 9, 1) ∧
    alu (one (start [(1, 5), (2, 7)] 0 false) 0x8125) = some (0xFE, 7, 0) := by decide

/-- A18. -/
theorem test_shrReg : alu (one (start [(1, 0xAA), (2, 5)] 0 false) 0x8126) = some (2, 5, 1) := by decide

/-- A20: the flag register as the source. -/
theorem test_shrReg_flag_source :
    alu (one (start [(1, 0xAA), (15, 3)] 0 false) 0x81F6) = some (1, 0, 1) := by decide

/-- A22. -/
theorem test_subnReg :
    alu (one (start [(1, 5), (2, 7)] 0 false) 0x8127) = some (2, 7, 1) ∧
    alu (one (start [(1, 7), (2, 5)] 0 false) 0x8127) = some (0xFE, 5, 0) := by decide

/-- A25. -/
theorem test_shlReg : alu (one (start [(2, 0xFF)] 0 false) 0x812E) = some (0xFE, 0xFF, 1) := by decide

/-- A26: the flag as the destination. -/
theorem test_shlReg_flag : alu (one (start [(2, 0x40), (15, 1)] 0 false) 0x8F2E) = some (0, 0x40, 0) := by decide

/-- A28 and A29, of the instruction with its draw given. -/
theorem test_rnd :
    (State.reset.withRandom 1 0x00 0xFF).v[(1 : Reg)] = 0 ∧
    (State.reset.withRandom 15 0x0F 0xA7).v[(15 : Reg)] = 0x07 := by decide

/-- A28: no bit is drawn through a zero mask, whatever the draw. -/
theorem test_rnd_zero_mask : look (fun t => t.v[(1 : Reg)]) (one (start [(1, 9)] 0 false) 0xC100) = some 0 := by
  show some (((State.reset.setReg 1 9).setReg 1 (Config.draw 0 &&& 0#8)).v[(1 : Reg)]) = some 0
  rw [BitVec.and_zero]; decide

/-! ### Graphics -/

/-- GR1. -/
theorem test_drw :
    look (fun t => (t.display[(16 : Fin 256)], t.display[(17 : Fin 256)], t.display[(24 : Fin 256)],
        t.display[(33 : Fin 256)], t.v[(15 : Reg)], t.vblank))
      (one ((start [(0, 4), (1, 2)] 0x300 true).store 0x300 [0xFF, 0x81, 0xFF]) 0xD013) =
      some (0x0F, 0xF0, 0x08, 0xF0, 0, false) := by decide

/-- GR9: the range check. -/
theorem test_drw_range :
    look (fun t => (t.fault, t.vblank, t.v[(15 : Reg)], t.pc)) (one (start [(15, 7)] 0xFFF true) 0xD012) =
      some (.memRange, true, 7, 0x202) := by decide

/-! ### Input -/

/-- K1, K3. -/
theorem test_skp :
    look (fun t => (t.fault, t.pc)) (one (start [(0, 16)] 0 false) 0xE09E) = some (.keyRange, 0x202) ∧
    look (fun t => t.pc) (one ((start [(0, 15)] 0 false).setKeys 0x8000) 0xE09E) = some 0x204 := by decide

/-- K2, K4. -/
theorem test_sknp :
    look (fun t => (t.fault, t.pc)) (one (start [(0, 255)] 0 false) 0xE0A1) = some (.keyRange, 0x202) ∧
    look (fun t => t.pc) (one ((start [(0, 15)] 0 false).setKeys 0x8000) 0xE0A1) = some 0x202 := by decide

/-- K6. -/
theorem test_ldVxK : look (fun t => t.v[(15 : Reg)]) (one (State.reset.setKeys 0x8100) 0xFF0A) = some 8 := by decide

/-- K8. -/
theorem test_ldVxK_waits : look (fun t => (t.pc, t.ir)) (one State.reset 0xF50A) = some (0x200, 0xF50A) := by decide

/-- K9. -/
theorem test_keys :
    (keyDown 0x13 State.reset).keys = 0x0008 ∧ (keyUp 0x23 (keyDown 0x13 State.reset)).keys = 0 := by decide

/-! ### Memory, index and timers -/

/-- M1. -/
theorem test_ldI : look (fun t => t.i) (one State.reset 0xAFFF) = some 0x0FFF := by decide

/-- M18. -/
theorem test_ldVxDt : look (fun t => t.v[(1 : Reg)]) (one (State.reset.setDt 200) 0xF107) = some 200 := by decide

/-- M19. -/
theorem test_ldDtVx : look (fun t => t.dt) (one (State.reset.setDt 9) 0xF215) = some 0 := by decide

/-- M20. -/
theorem test_ldStVx : look (fun t => t.st) (one (start [(3, 255)] 0 false) 0xF318) = some 255 := by decide

/-- M2. -/
theorem test_addI :
    look (fun t => (t.i, t.v[(15 : Reg)])) (one (start [(1, 1)] 0xFFFF false) 0xF11E) = some (0, 0) := by decide

/-- M4 for v = 103, where the byte is one of the program: `memory[0x203]`. -/
theorem test_ldF_program :
    look (fun t => t.i) (one ((start [(0, 103)] 0 false).store 0x203 [0x42]) 0xF029) = some 0x42 := by decide

/-- M4 for v = 10 under the hypothesis R24 asks for. -/
theorem test_ldF_font (h : Config.FontIsDefault) :
    look (fun t => t.i) (one (start [(0, 10)] 0 false) 0xF029) = some 0xF0 := by
  have hf : Config.font 50 = 0xF0 := by
    have := congrArg (fun l => l[50]?) h
    simpa [Config.FontIsDefault, Config.defaultFont] using this
  show some (zext (Config.font 50)) = some 0xF0
  rw [hf]; decide

/-- M5. -/
theorem test_ldB :
    look (fun t => (t.read 0x300, t.read 0x301, t.read 0x302, t.i)) (one (start [(0, 255)] 0x300 false) 0xF033) =
      some (2, 5, 5, 0x300) := by decide

/-- M8, M9: nothing is stored; MEM_RANGE is tested first. -/
theorem test_ldB_faults :
    look (fun t => (t.fault, t.read 0x202)) (one (start [(0, 123)] 0x1FF false) 0xF033) = some (.writeProtect, 0) ∧
    look (fun t => t.fault) (one (start [(0, 1)] 0xFFFF false) 0xF033) = some .memRange := by decide

/-- M10, of one register more than one: `V[1]` lies at `I + 1`. -/
theorem test_storeRegs :
    look (fun t => (t.read 0xFFE, t.read 0xFFF, t.i)) (one (start [(0, 0xA0), (1, 0xA1)] 0xFFE false) 0xF155) =
      some (0xA0, 0xA1, 0x1000) := by decide

/-- M12. -/
theorem test_storeRegs_protected :
    look (fun t => (t.fault, t.i)) (one (start [(0, 0x77), (1, 0x88)] 0x1FF false) 0xF155) =
      some (.writeProtect, 0x1FF) := by decide

/-- M14, the first and the last register. -/
theorem test_loadRegs :
    look (fun t => (t.v[(0 : Reg)], t.v[(1 : Reg)], t.v[(2 : Reg)], t.i))
      (one ((start [(2, 0x99)] 0x300 false).store 0x300 [0x10, 0x11, 0x12]) 0xF165) =
      some (0x10, 0x11, 0x99, 0x302) := by decide

/-- M16. -/
theorem test_loadRegs_range :
    look (fun t => (t.fault, t.i, t.v[(0 : Reg)])) (one (start [(0, 3)] 0xFFF false) 0xF165) =
      some (.memRange, 0xFFF, 3) := by decide

/-! ### Events -/

/-- X1. -/
theorem test_tick :
    (tick { State.reset with dt := 1, st := 2 }).dt = 0 ∧ (tick { State.reset with dt := 1, st := 2 }).st = 1 ∧
    (tick { State.reset with dt := 1, st := 2 }).vblank = true := by decide

/-- X8. -/
theorem test_load :
    (load [0x12, 0x00] { State.reset with haltCode := .unknownInstruction, dt := 4, keys := 4 }).1 = .ok ∧
    (load [0x12, 0x00] { State.reset with haltCode := .unknownInstruction, dt := 4, keys := 4 }).2.keys = 0 ∧
    (load [0x12, 0x00] State.reset).2.read 0x200 = 0x12 := by decide

/-- GR14. -/
theorem test_getPixel :
    getPixel 67 33 { State.reset with display := (Vector.replicate 256 0).set 8 0x10 } = true ∧
    getPixel 4 1 { State.reset with display := (Vector.replicate 256 0).set 8 0x10 } = false := by decide

/-! ### Witnesses: states and operands that meet the hypotheses of the statements, clause by clause, at the ends of each
range. The theorem `witness_X` is for the statement `Obligations.X`. -/

/-- Reset with a word at `a`, which is where `pc` is. -/
def placed (a : Word) (w : Nat) : State := ({ State.reset with pc := a } : State).withFetchWord 16 w

theorem witness_DecodeOfEncode :
    (Instr.drw 15 0 15).wellFormed = true ∧ (Instr.sys 0xFFF).wellFormed = true ∧ (Instr.sys 0).wellFormed = true := by
  decide

theorem witness_EncodeOfDecode :
    decodeWord 0x0000 = .ok (.sys 0) ∧ decodeWord 0x00E0 = .ok .cls ∧ decodeWord 0xFF65 = .ok (.loadRegs 15) := by decide

theorem witness_UnknownWordsAreExactlyThese :
    decodeTableWord 16 0x8008 = none ∧ decodeTableWord 16 0x800F = none ∧ decodeTableWord 16 0xEFFF = none ∧
    decodeTableWord 16 0xFFFF = none ∧ decodeTableWord 16 0x800E ≠ none ∧ decodeTableWord 16 0x8007 ≠ none := by decide

theorem witness_BytesDecodeTwoAtATime :
    (Instr.storeRegs 15).wellFormed = true ∧ ([0xFF] : List Byte).length < 2 := by decide

theorem witness_StepRunsTheDecodedInstruction :
    (Running (placed 0x200 0x1200) ∧ InWindow (placed 0x200 0x1200) ∧ (placed 0x200 0x1200).fetchWord = 0x1200) ∧
    (Running (placed 0xFFE 0x6107) ∧ InWindow (placed 0xFFE 0x6107) ∧ (placed 0xFFE 0x6107).fetchWord = 0x6107) ∧
    ((0x6107 : Word).toNat = ((placed 0xFFE 0x6107).read (placed 0xFFE 0x6107).pc.toNat).toNat * 256 +
      ((placed 0xFFE 0x6107).read ((placed 0xFFE 0x6107).pc.toNat + 1)).toNat) ∧
    decodeWord 0x6107 = .ok (.ldImm 1 7) := by decide

theorem witness_StoppedStepChangesNothing :
    ({ State.reset with haltCode := .stackOverflow } : State).haltCode ≠ .none ∧
    ({ State.reset with fault := .keyRange } : State).fault ≠ .none := by decide

theorem witness_FetchOutsideTheWindowFaults :
    Running { State.reset with pc := 0x1FF } ∧ ({ State.reset with pc := 0x1FF } : State).pc.toNat < 0x200 ∧
    Running { State.reset with pc := 0xFFF } ∧ 0xFFE < ({ State.reset with pc := 0xFFF } : State).pc.toNat ∧
    Running { State.reset with pc := 0xFFFF } ∧ 0xFFE < ({ State.reset with pc := 0xFFFF } : State).pc.toNat := by decide

theorem witness_UnknownWordHalts :
    Running (placed 0x200 0x8008) ∧ InWindow (placed 0x200 0x8008) ∧
    (0x8008 : Word).toNat = ((placed 0x200 0x8008).read 0x200).toNat * 256 + ((placed 0x200 0x8008).read 0x201).toNat ∧
    InWindow (placed 0xFFE 0xFFFF) ∧ (placed 0xFFE 0xFFFF).fetchWord = 0xFFFF := by decide

theorem witness_RetryChangesOnlyTheLatchedOpcode :
    (Running (placed 0x200 0xD123) ∧ InWindow (placed 0x200 0xD123) ∧
      decodeWord (placed 0x200 0xD123).fetchWord = .ok (.drw 1 2 3) ∧ (placed 0x200 0xD123).vblank = false ∧
      ((placed 0x200 0xD123).setVblank true).vblank = true) ∧
    (decodeWord (placed 0xFFE 0xF50A).fetchWord = .ok (.ldVxK 5) ∧ (placed 0xFFE 0xF50A).keys = 0 ∧
      ((placed 0xFFE 0xF50A).setKeys 0x8000).keys ≠ 0) ∧
    look (fun t => t.pc) (step (placed 0x200 0xD123)) = some (placed 0x200 0xD123).pc ∧
    look (fun t => t.pc) (step (placed 0x200 0xF50A)) = some (placed 0x200 0xF50A).pc ∧
    look (fun t => t.pc) (step (placed 0x200 0x1200)) = some (placed 0x200 0x1200).pc ∧
    look (fun t => t.pc) (step (placed 0x200 0x2200)) = some (placed 0x200 0x2200).pc ∧
    look (fun t => t.pc) (step (placed 0x200 0xB200)) = some (placed 0x200 0xB200).pc ∧
    look (fun t => t.pc) (step ((placed 0x200 0x00EE).setStack (Vector.replicate 16 0x200) 1)) =
      some (placed 0x200 0x00EE).pc := by decide

theorem witness_ProgramCounterAfterStep :
    (Running (placed 0xFFE 0x3000) ∧ InWindow (placed 0xFFE 0x3000) ∧
      decodeWord (placed 0xFFE 0x3000).fetchWord = .ok (.seImm 0 0)) ∧
    (Running (placed 0x200 0x1FFF) ∧ InWindow (placed 0x200 0x1FFF) ∧
      decodeWord (placed 0x200 0x1FFF).fetchWord = .ok (.jp 0xFFF)) ∧
    look (fun t => t.pc) (step (placed 0x200 0x1FFF)) = some 0xFFF ∧
    look (fun t => t.pc) (step ((placed 0x200 0xBFFF).setReg 0 0xFF)) = some 0x10FE ∧
    look (fun t => t.pc) (step ((placed 0x200 0x2300).setStack (Vector.replicate 16 0) 16)) = some 0x202 ∧
    look (fun t => t.pc) (step ((placed 0x200 0x2300).setStack (Vector.replicate 16 0) 15)) = some 0x300 ∧
    look (fun t => t.pc) (step (placed 0x200 0x00EE)) = some 0x202 ∧
    look (fun t => t.pc) (step ((placed 0x200 0x00EE).setStack (Vector.replicate 16 0x345) 1)) = some 0x345 ∧
    look (fun t => t.pc) (step (placed 0xFFE 0x3000)) = some 0x1002 ∧
    look (fun t => t.pc) (step (placed 0xFFE 0x3001)) = some 0x1000 ∧
    look (fun t => t.pc) (step (placed 0x200 0x4000)) = some 0x202 ∧
    look (fun t => t.pc) (step (placed 0x200 0x4001)) = some 0x204 ∧
    look (fun t => t.pc) (step ((placed 0x200 0x501F).setReg 1 1)) = some 0x202 ∧
    look (fun t => t.pc) (step ((placed 0x200 0x901F).setReg 1 1)) = some 0x204 ∧
    look (fun t => t.pc) (step (((placed 0x200 0xE09E).setReg 0 15).setKeys 0x8000)) = some 0x204 ∧
    look (fun t => t.pc) (step (((placed 0x200 0xE09E).setReg 0 15).setKeys 0x7FFF)) = some 0x202 ∧
    look (fun t => t.pc) (step (((placed 0x200 0xE0A1).setReg 0 15).setKeys 0x7FFF)) = some 0x204 ∧
    look (fun t => (t.pc, t.fault)) (step (((placed 0x200 0xE09E).setReg 0 16).setKeys 0xFFFF)) =
      some (0x202, .keyRange) ∧
    look (fun t => (t.pc, t.fault)) (step (((placed 0x200 0xE0A1).setReg 0 16).setKeys 0)) =
      some (0x202, .keyRange) ∧
    look (fun t => t.pc) (step ((placed 0xFFE 0xD000).setVblank true)) = some 0x1000 ∧
    look (fun t => t.pc) (step ((placed 0xFFE 0xF00A).setKeys 1)) = some 0x1000 := by decide

/-- A state with a byte stored, a return address pushed and a halt recorded. -/
def busy : State :=
  ((State.reset.store 0x200 [0x12]).setStack (Vector.replicate 16 0x1000) 16).setHalt .stackOverflow

theorem witness_StepKeepsTheInvariant :
    RunInv busy ∧ look (fun t => t.mem) (step busy) = some [(0x200, 0x12)] ∧
    RunInv (placed 0xFFE 0xF055) ∧ look (fun t => t.fault) (step (placed 0xFFE 0xF055)) = some .writeProtect := by decide

theorem witness_EventsKeepTheInvariant : RunInv busy ∧ RunInv (placed 0x200 0xFFFF) := by decide

theorem witness_InstructionsWriteOnlyTheirTable :
    look (fun t => t.read 0x302) (exec (.ldB 0) (start [(0, 7)] 0x300 false)) = some 7 ∧
    look (fun t => t.i) (exec (.storeRegs 15) (start [] 0xFF0 false)) = some 0x1000 ∧
    look (fun t => t.v[(15 : Reg)]) (exec (.drw 0 0 1) (start [(15, 9)] 0x300 true)) = some 0 := by decide

theorem witness_StepNeverStoresBelowTheProgram :
    look (fun t => t.read 0x1FF) (step ((placed 0x300 0xF055).setI 0x200)) = some 0 ∧
    look (fun t => t.fault) (step ((placed 0x300 0xF055).setI 0x1FF)) = some .writeProtect := by decide

theorem witness_StackPointerDiscipline :
    busy.sp.val = 16 ∧ (busy.setStack busy.stack 15).sp.val < 16 ∧ State.reset.sp.val = 0 ∧
    0 < (busy.setStack busy.stack 1).sp.val ∧ look (fun t => t.sp) (exec (.call 0x300) State.reset) = some 1 ∧
    look (fun t => t.sp) (exec .ret busy) = some 15 ∧ Instr.ldImm 0 1 ≠ .ret ∧
    look (fun t => t.sp) (exec (.ldImm 0 1) busy) = some 16 := by decide

theorem witness_FaultsArePrecise :
    look (fun t => t.fault) (exec (.skp 0) (start [(0, 16)] 0 false)) = some .keyRange ∧
    look (fun t => t.fault) (step { State.reset with pc := 0x1FF }) = some .pcRange ∧
    look (fun t => t.fault) (step ((placed 0xFFE 0xF065).setI 0x1000)) = some .memRange := by decide

theorem witness_HaltsArePrecise :
    look (fun t => t.haltCode) (exec .ret State.reset) = some .stackUnderflow ∧
    look (fun t => t.haltCode) (step (placed 0xFFE 0x8008)) = some .unknownInstruction := by decide

theorem witness_OnlyResetAndLoadClearTheLatches :
    ¬ Running busy ∧ look (fun t => t.haltCode) (exec (.ldImm 0 1) busy) = some .stackOverflow ∧
    Event.tick ≠ .reset ∧ Event.tick ≠ .construct ∧ 3584 < (List.replicate 3585 (0 : Byte)).length ∧
    (List.replicate 3584 (0 : Byte)).length ≤ 3584 := by
  rw [List.length_replicate, List.length_replicate]; decide

theorem witness_CurrentOpcodeIsTheLastFetched :
    look currentOpcode (step (placed 0x200 0xD123)) = some 0xD123 ∧
    look currentOpcode (step (placed 0xFFE 0x8008)) = some 0x8008 ∧
    look currentOpcode (step { State.reset with pc := 0x1FF, ir := 7 }) = some 7 ∧
    look currentOpcode (step { busy with ir := 9 }) = some 9 ∧ Event.tick ≠ .step ∧
    look currentOpcode (applyEvent .tick { busy with ir := 9 }) = some 9 ∧
    look currentOpcode (applyEvent .reset { busy with ir := 9 }) = some 0 := by decide

theorem witness_FirstStepAfterReset :
    (0x00EE : Word).toNat =
      (Memory.read [(0x201, 0xEE)] 0x200).toNat * 256 + (Memory.read [(0x201, 0xEE)] 0x201).toNat ∧
    decodeWord 0x00EE = .ok .ret ∧
    (0xD123 : Word).toNat = (Memory.read [(0x200, 0xD1), (0x201, 0x23)] 0x200).toNat * 256 +
      (Memory.read [(0x200, 0xD1), (0x201, 0x23)] 0x201).toNat ∧
    decodeWord 0xD123 = .ok (.drw 1 2 3) ∧
    (0x8008 : Word).toNat = (Memory.read [(0x200, 0x80), (0x201, 0x08)] 0x200).toNat * 256 +
      (Memory.read [(0x200, 0x80), (0x201, 0x08)] 0x201).toNat ∧
    decodeWord 0x8008 = .error (.unknownInstruction 0x8008) ∧
    look (fun t => (t.ir, t.pc)) (step { State.reset with mem := [(0x200, 0x61), (0x201, 7)] }) =
      some (0x6107, 0x202) := by decide

theorem witness_LoadPlacesTheProgram :
    3584 < (List.replicate 3585 (0 : Byte)).length ∧ (List.replicate 3584 (1 : Byte)).length ≤ 3584 ∧
    3583 < (List.replicate 3584 (1 : Byte)).length ∧ (0x1FF : Nat) < 0x200 ∧
    0x200 + (List.replicate 3584 (1 : Byte)).length ≤ 0x1000 := by
  rw [List.length_replicate, List.length_replicate]; decide

theorem witness_FetchIsBigEndian :
    (List.replicate 3584 (1 : Byte)).length ≤ 3584 ∧ 3582 + 1 < (List.replicate 3584 (1 : Byte)).length ∧
    ({ (load [0x12, 0x34] State.reset).2 with pc := BitVec.ofNat 16 (0x200 + 0) } : State).fetchWord = 0x1234 := by
  rw [List.length_replicate]; decide

theorem witness_KeyEventsMoveOneBit : (15 : Nat) < 16 ∧ (15 : Nat) = 0x1F % 16 := by decide

theorem witness_GetPixelReadsTheWrappedPixel :
    (255 : Fin 256).val = 63 % 32 * 8 + 127 % 64 / 8 ∧ (0 : Fin 256).val = 32 % 32 * 8 + 64 % 64 / 8 := by decide

theorem witness_StoredBytesAreFetched :
    (0x200 ≤ (start [] 0x200 false).i.toNat ∧ (start [] 0x200 false).i.toNat + (0 : Reg).val ≤ 0xFFF ∧
      (0 : Reg) ≤ 0 ∧ (0x200 : Word).toNat = (start [] 0x200 false).i.toNat + (0 : Reg).val) ∧
    (0x200 ≤ (start [] 0xFF0 false).i.toNat ∧ (start [] 0xFF0 false).i.toNat + (15 : Reg).val ≤ 0xFFF ∧
      (0xFFE : Word).toNat + 1 = (start [] 0xFF0 false).i.toNat + (15 : Reg).val) ∧
    (0x200 ≤ (start [] 0x200 false).i.toNat ∧ (start [] 0x200 false).i.toNat + 2 ≤ 0xFFF ∧
      (0x202 : Word).toNat = (start [] 0x200 false).i.toNat + 2) ∧
    (start [] 0xFFD false).i.toNat + 2 ≤ 0xFFF ∧ (0xFFE : Word).toNat + 1 = (start [] 0xFFD false).i.toNat + 2 ∧
    look (fun t => t.fetchWord) (exec (.storeRegs 0) ((start [(0, 0x77)] 0x200 false).store 0x201 [0x55])) =
      some 0x7755 := by decide

theorem witness_RetPopsTheProgramCounter :
    State.reset.sp.val = 0 ∧ 0 < (busy.setStack busy.stack 1).sp.val ∧ 0 < busy.sp.val ∧
    look (fun t => t.pc) (exec .ret busy) = some 0x1000 := by decide

theorem witness_SysChangesNothing :
    (0x0E1 : Addr) ≠ 0x0E0 ∧ (0x0E1 : Addr) ≠ 0x0EE ∧ (0xFFF : Addr) ≠ 0x0E0 ∧ (0xFFF : Addr) ≠ 0x0EE := by decide

theorem witness_JpSetsTheProgramCounter :
    Running State.reset ∧ (0x1FF : Addr).toNat < 0x200 ∧ 0xFFE < (0xFFF : Addr).toNat ∧
    Running (placed 0x200 0x1200) ∧ InWindow (placed 0x200 0x1200) ∧
    decodeWord (placed 0x200 0x1200).fetchWord = .ok (.jp 0x200) ∧ (placed 0x200 0x1200).pc.toNat = (0x200 : Addr).toNat := by
  decide

theorem witness_CallPushesAndJumps : busy.sp.val = 16 ∧ (busy.setStack busy.stack 15).sp.val < 16 := by decide

theorem witness_RetAnswersCall :
    ((0 : Fin 16).val = State.reset.sp.val ∧ (15 : Fin 16).val = (busy.setStack busy.stack 15).sp.val) ∧
    look (fun t => decide (
      ((t.setReg 3 9).setStack (t.stack.set 14 0x345) t.sp).sp = t.sp ∧
      ((t.setReg 3 9).setStack (t.stack.set 14 0x345) t.sp).stack[(15 : Fin 16)] = busy.pc))
      (exec (.call 0x300) (busy.setStack busy.stack 15)) = some true := by decide

theorem witness_SkipsOnAnImmediate :
    (start [(1, 5)] 0 false).v[(1 : Reg)] = (5 : Byte) ∧ (start [(1, 6)] 0 false).v[(1 : Reg)] ≠ (5 : Byte) := by decide

theorem witness_LogicOpsClearTheFlag : (14 : Reg) ≠ 15 ∧ (0 : Reg) ≠ 15 := by decide

theorem witness_SubtractionsReportNoBorrow :
    (14 : Reg) ≠ 15 ∧ (start [(1, 9), (2, 9)] 0 false).v[(2 : Reg)].toNat ≤ (start [(1, 9), (2, 9)] 0 false).v[(1 : Reg)].toNat ∧
    ¬ (start [(1, 8), (2, 9)] 0 false).v[(2 : Reg)].toNat ≤ (start [(1, 8), (2, 9)] 0 false).v[(1 : Reg)].toNat := by decide

theorem witness_ShiftsTakeTheSecondRegister : (14 : Reg) ≠ 15 ∧ (0 : Reg) ≠ 15 := by decide

theorem witness_AddRegReportsCarry :
    (14 : Reg) ≠ 15 ∧
    255 < (start [(1, 0xFF), (2, 1)] 0 false).v[(1 : Reg)].toNat + (start [(1, 0xFF), (2, 1)] 0 false).v[(2 : Reg)].toNat ∧
    ¬ 255 < (start [(1, 0xFE), (2, 1)] 0 false).v[(1 : Reg)].toNat +
      (start [(1, 0xFE), (2, 1)] 0 false).v[(2 : Reg)].toNat := by decide

theorem witness_DrawIsGatedByVblank :
    (start [] 0x300 false).vblank = false ∧ (start [] 0x300 true).vblank = true ∧
    look (fun t => t.vblank) (exec (.drw 0 0 1) (start [] 0x300 true)) = some false ∧
    look (fun t => t.fault) (exec (.drw 0 0 2) (start [] 0xFFF true)) = some .memRange ∧
    look (fun t => t.vblank) (exec (.ldImm 0 1) (start [] 0x300 false)) = some false ∧ Event.keyDown 3 ≠ .tick ∧
    look (fun t => t.vblank) (applyEvent (.keyDown 3) (start [] 0x300 false)) = some false := by decide

theorem witness_DrawFlipsTheSpritesPixels :
    (start [] 0xFFF true).vblank = true ∧ SpriteInMemory (start [] 0xFFF true) 1 ∧ SpriteInMemory (start [] 0xFFFF true) 0 ∧
    ¬ SpriteInMemory (start [] 0xFFF true) 2 := by unfold SpriteInMemory; decide

/-- One lit pixel, and a sprite with its 1 bit there. -/
def lit : State :=
  ((start [] 0xFFF true).setDisplay ((Vector.replicate 256 0).set 0 0x80)).store 0xFFF [0x80]

theorem witness_DrawFlipsTheSpritesPixels_erases : erases lit 0 0 1 := ⟨0, 0, by decide, by decide⟩

theorem witness_DrawFlipsTheSpritesPixels_draws_nothing : ¬ erases lit 0 0 0 := by
  rintro ⟨px, py, h, -⟩
  have hn : (0 : Nibble).toNat = 0 := rfl
  simp only [spriteBit, Bool.and_eq_true, decide_eq_true_eq, hn] at h
  omega

theorem witness_DrawingTwiceRestoresTheDisplay :
    (start [] 0x300 true).vblank = true ∧ SpriteInMemory (start [] 0x300 true) 15 ∧ lit.vblank = true ∧
    SpriteInMemory lit 1 := by unfold SpriteInMemory; decide

/-- A second state for the second draw, which differs from the one the first draw left. -/
theorem witness_DrawingTwiceRestoresTheDisplay_second :
    ∃ t s' : State, exec (.drw 0 0 1) lit = .next t ∧ s'.display = t.display ∧ s'.mem = lit.mem ∧ s'.i = lit.i ∧
      s'.v[(0 : Reg)] = lit.v[(0 : Reg)] ∧ s'.dt ≠ t.dt := by
  have h : ∃ t, exec (.drw 0 0 1) lit = .next t ∧ t.mem = lit.mem ∧ t.i = lit.i ∧
      t.v[(0 : Reg)] = lit.v[(0 : Reg)] ∧ t.dt = 0 := ⟨_, rfl, rfl, rfl, rfl, rfl⟩
  obtain ⟨t, ht, hm, hi, hv, hd⟩ := h
  exact ⟨t, t.setDt 9, ht, rfl, hm, hi, hv, by rw [hd]; show (9 : Byte) ≠ 0; decide⟩

theorem witness_SkipsOnAKey :
    15 < (start [(0, 16)] 0 false).v[(0 : Reg)].toNat ∧ (start [(0, 15)] 0 false).v[(0 : Reg)].toNat ≤ 15 := by decide

theorem witness_KeyWaitTakesTheLeastKey : State.reset.keys = 0 ∧ (State.reset.setKeys 0x8000).keys ≠ 0 := by decide

theorem witness_LdFLoadsTheFontByte :
    RunInv (start [(0, 15)] 0 false) ∧ (75 : Fin 80).val = (start [(0, 15)] 0 false).v[(0 : Reg)].toNat * 5 ∧
    RunInv (start [(0, 16)] 0 false) ∧ 16 ≤ (start [(0, 16)] 0 false).v[(0 : Reg)].toNat ∧
    RunInv (start [(0, 102)] 0 false) ∧ (start [(0, 102)] 0 false).v[(0 : Reg)].toNat ≤ 102 := by decide

theorem witness_LdBStoresDecimalDigits :
    0xFFF < (start [] 0xFFE false).i.toNat + 2 ∧
    ((start [] 0x1FF false).i.toNat + 2 ≤ 0xFFF ∧ (start [] 0x1FF false).i.toNat < 0x200) ∧
    (0x200 ≤ (start [] 0x200 false).i.toNat ∧ (start [] 0x200 false).i.toNat + 2 ≤ 0xFFF) ∧
    (0x200 ≤ (start [] 0xFFD false).i.toNat ∧ (start [] 0xFFD false).i.toNat + 2 ≤ 0xFFF) := by decide

theorem witness_StoreRegsStoresTheBlock :
    0xFFF < (start [] 0xFF1 false).i.toNat + (15 : Reg).val ∧
    ((start [] 0x1FF false).i.toNat + (15 : Reg).val ≤ 0xFFF ∧ (start [] 0x1FF false).i.toNat < 0x200) ∧
    (0x200 ≤ (start [] 0x200 false).i.toNat ∧ (start [] 0xFF0 false).i.toNat + (15 : Reg).val ≤ 0xFFF) ∧
    0x200 ≤ (start [] 0xFF0 false).i.toNat ∧ (15 : Reg) ≤ 15 := by decide

theorem witness_LoadRegsLoadsTheBlock :
    0xFFF < (start [] 0xFF1 false).i.toNat + (15 : Reg).val ∧ (start [] 0xFF0 false).i.toNat + (15 : Reg).val ≤ 0xFFF ∧
    (start [] 0 false).i.toNat + (0 : Reg).val ≤ 0xFFF := by decide

end Sys2Proof.Tests
end

/-! The stack pointer (10_state.md R27): what CALL and RET answer at each end of the stack, and that every other instruction
is blind to `sp`. Being blind says both that it reads no `sp` and that it writes none (`SpBlind.sp_eq`), so one case split
over the instructions gives both. -/

namespace Sys2Proof.Machine

/-! ### CALL and RET -/

theorem exec_call_of_push_none {s : State} (nnn : Addr) (h : s.push = none) :
    exec (.call nnn) s = .next (s.setHalt .stackOverflow) := by
  simp only [exec, execCall, h, raiseHalt]

theorem exec_call_of_push_some {s t : State} (nnn : Addr) (h : s.push = some t) :
    exec (.call nnn) s = .next (t.setPc (address nnn)) := by
  simp only [exec, execCall, h, jump]

theorem exec_ret_of_pop_none {s : State} (h : s.pop = none) :
    exec .ret s = .next (s.setHalt .stackUnderflow) := by
  simp only [exec, execRet, h, raiseHalt]

theorem exec_ret_of_pop_some {s t : State} {target : Word} (h : s.pop = some (target, t)) :
    exec .ret s = .next (t.setPc target) := by
  simp only [exec, execRet, h, jump]

/-- CALL pushes one entry, or halts at 16 and leaves `sp` (R27, R144). -/
theorem exec_call_sp (s : State) (nnn : Addr) :
    ∃ t, exec (.call nnn) s = .next t ∧
      (s.sp.val = 16 → t.haltCode = .stackOverflow ∧ t.sp = s.sp) ∧ (s.sp.val < 16 → t.sp.val = s.sp.val + 1) := by
  cases hp : s.push with
  | none =>
    have hfull : s.sp.val = 16 := State.push_none.1 hp
    exact ⟨_, exec_call_of_push_none nnn hp, fun _ => ⟨rfl, rfl⟩, fun _ => by omega⟩
  | some t =>
    obtain ⟨hroom, hsp, -, -⟩ := State.push_some hp
    exact ⟨_, exec_call_of_push_some nnn hp, fun _ => by omega, fun _ => hsp⟩

/-- RET pops one entry, or halts at 0 and leaves `sp` (R27, R141). -/
theorem exec_ret_sp (s : State) :
    ∃ t, exec .ret s = .next t ∧
      (s.sp.val = 0 → t.haltCode = .stackUnderflow ∧ t.sp = s.sp) ∧ (0 < s.sp.val → t.sp.val + 1 = s.sp.val) := by
  cases hp : s.pop with
  | none =>
    have hempty : s.sp.val = 0 := State.pop_none.1 hp
    exact ⟨_, exec_ret_of_pop_none hp, fun _ => ⟨rfl, rfl⟩, fun _ => by omega⟩
  | some p =>
    obtain ⟨hpushed, hsp, -, -⟩ := State.pop_some hp
    exact ⟨_, exec_ret_of_pop_some hp, fun _ => by omega, fun _ => hsp⟩

/-! ### Instructions that are blind to `sp` -/

def State.setSp (s : State) (n : Fin 17) : State := { s with sp := n }

/-- With any other `sp` the meaning answers the same state, but for that `sp`. -/
def SpBlind (f : State → Result) : Prop :=
  ∀ (s t : State) (n : Fin 17), f s = .next t → f (s.setSp n) = .next (t.setSp n)

/-- A meaning blind to `sp` leaves it: run it with the `sp` that is there already. -/
theorem SpBlind.sp_eq {f : State → Result} (hf : SpBlind f) {s t : State} (h : f s = .next t) : t.sp = s.sp := by
  have hagain : f s = .next (t.setSp s.sp) := hf s t s.sp h
  have ht : t = t.setSp s.sp := Host.Outcome.next.inj (h.symm.trans hagain)
  calc t.sp = (t.setSp s.sp).sp := congrArg State.sp ht
    _ = s.sp := rfl

theorem spBlind_next {g : State → State} (hg : ∀ s n, g (s.setSp n) = (g s).setSp n) :
    SpBlind fun s => .next (g s) := by
  intro s t n h
  obtain rfl : g s = t := Host.Outcome.next.inj h
  exact congrArg Host.Outcome.next (hg s n)

theorem spBlind_ite {c : State → Prop} [DecidablePred c] {f g : State → Result} (hc : ∀ s n, c (s.setSp n) ↔ c s)
    (hf : SpBlind f) (hg : SpBlind g) : SpBlind fun s => if c s then f s else g s := by
  intro s t n h
  by_cases hs : c s
  · simp only [hc, hs, if_true] at h ⊢
    exact hf s t n h
  · simp only [hc, hs, if_false] at h ⊢
    exact hg s t n h

theorem spBlind_skipIf {c : State → Bool} (hc : ∀ s n, c (s.setSp n) = c s) : SpBlind fun s => skipIf (c s) s := by
  refine spBlind_next fun s n => ?_
  rw [hc]
  split <;> rfl

theorem spBlind_unlessFault {check : State → Option FaultCode} {go : State → Result}
    (hc : ∀ s n, check (s.setSp n) = check s) (hgo : SpBlind go) :
    SpBlind fun s => unlessFault (check s) s (go s) := by
  intro s t n h
  simp only [hc]
  rcases unlessFault_cases h with ⟨c, hs, rfl⟩ | ⟨hs, ht⟩
  · rw [hs]; rfl
  · rw [hs]; exact hgo s t n ht

/-- R27 and the `sp` column of R38: only CALL and RET touch `sp`. -/
theorem exec_spBlind {i : Instr} (hret : i ≠ .ret) (hcall : ∀ nnn, i ≠ .call nnn) : SpBlind (exec i) := by
  cases i with
  | ret => exact absurd rfl hret
  | call nnn => exact absurd rfl (hcall nnn)
  | cls | sys | jp | jpV0 => exact spBlind_next fun _ _ => rfl
  | ldImm | addImm | ldReg | orReg | andReg | xorReg | addReg | subReg | shrReg | subnReg | shlReg | rnd =>
    exact spBlind_next fun _ _ => rfl
  | ldI | ldVxDt | ldDtVx | ldStVx | addI | ldF => exact spBlind_next fun _ _ => rfl
  | seImm | sneImm | seReg | sneReg => exact spBlind_skipIf fun _ _ => rfl
  | skp | sknp => exact spBlind_unlessFault (fun _ _ => rfl) (spBlind_skipIf fun _ _ => rfl)
  | ldVxK => exact spBlind_ite (fun _ _ => Iff.rfl) (spBlind_next fun _ _ => rfl) (spBlind_next fun _ _ => rfl)
  | ldB | storeRegs | loadRegs => exact spBlind_unlessFault (fun _ _ => rfl) (spBlind_next fun _ _ => rfl)
  | drw =>
    exact spBlind_ite (fun _ _ => Iff.rfl) (spBlind_unlessFault (fun _ _ => rfl) (spBlind_next fun _ _ => rfl))
      (spBlind_next fun _ _ => rfl)

/-- Settles O18: the ends of the stack by CALL and RET, the rest by blindness to `sp`. -/
theorem stackPointerDiscipline : Obligations.StackPointerDiscipline := by
  refine ⟨fun s => Nat.le_of_lt_succ s.sp.isLt, rfl, exec_call_sp, exec_ret_sp, ?_⟩
  intro i s t n hret hcall h
  have hblind := exec_spBlind hret hcall
  exact ⟨hblind.sp_eq h, hblind s t n h⟩

end Sys2Proof.Machine

/-! The fetch and LOAD (20_memory.md R62, 70_reset_and_hazards.md R303): the fields of a fetched word by the byte that carries
each, and the bytes a LOAD leaves in memory. -/

namespace Sys2Proof

/-! ### The fields of two joined bytes -/

section
variable (hi lo : Byte)

theorem family_joinBytes : family (joinBytes hi lo) = hi.toNat / 16 := by
  have := lo.isLt
  rw [family_eq, joinBytes_toNat]; omega

theorem fieldX_joinBytes : (fieldX (joinBytes hi lo)).val = hi.toNat % 16 := by
  have := lo.isLt
  rw [fieldX_val, joinBytes_toNat]; omega

theorem fieldY_joinBytes : (fieldY (joinBytes hi lo)).val = lo.toNat / 16 := by
  have := lo.isLt
  rw [fieldY_val, joinBytes_toNat]; omega

theorem fieldN_joinBytes : (fieldN (joinBytes hi lo)).toNat = lo.toNat % 16 := by
  rw [fieldN_toNat, joinBytes_toNat]; omega

theorem fieldNN_joinBytes : fieldNN (joinBytes hi lo) = lo := by
  have := lo.isLt
  apply BitVec.eq_of_toNat_eq
  rw [fieldNN_toNat, joinBytes_toNat]; omega

end

end Sys2Proof

namespace Sys2Proof.Machine

theorem State.fetchWord_toNat (s : State) :
    s.fetchWord.toNat = (s.read s.pc.toNat).toNat * 256 + (s.read (s.pc.toNat + 1)).toNat :=
  joinBytes_toNat _ _

theorem State.setPc_fetchWord (s : State) (p : Word) :
    (s.setPc p).fetchWord = joinBytes (s.read p.toNat) (s.read (p.toNat + 1)) := rfl

/-! ### The memory after a LOAD -/

theorem load_of_fits {bytes : List Byte} (hfit : bytes.length ≤ 3584) (s : State) :
    load bytes s = (.ok, (resetEvent s).store 0x200 bytes) := if_neg (Nat.not_lt.2 hfit)

theorem load_read {bytes : List Byte} (hfit : bytes.length ≤ 3584) (s : State) {k : Nat} (hk : k < bytes.length) :
    (load bytes s).2.read (0x200 + k) = bytes[k] := by
  rw [load_of_fits hfit, State.read_eq, State.store_mem, Memory.read_writeBytes, dif_pos (by omega)]
  simp only [Nat.add_sub_cancel_left]

/-- No address of a loaded program overflows `pc`, so a fetch there reads two neighbouring program bytes. -/
theorem load_fetchWord {bytes : List Byte} (hfit : bytes.length ≤ 3584) (s : State) {k : Nat}
    (hk : k + 1 < bytes.length) :
    ((load bytes s).2.setPc (BitVec.ofNat 16 (0x200 + k))).fetchWord = joinBytes bytes[k] bytes[k + 1] := by
  have hpc : (BitVec.ofNat 16 (0x200 + k)).toNat = 0x200 + k := by rw [BitVec.toNat_ofNat]; omega
  have hhi : (load bytes s).2.read (0x200 + k) = bytes[k] := load_read hfit s (by omega)
  have hlo : (load bytes s).2.read (0x200 + k + 1) = bytes[k + 1] := load_read hfit s hk
  rw [State.setPc_fetchWord, hpc, hhi, hlo]

/-- Settles O26: the word's fields from its two bytes, then the bytes LOAD wrote. -/
theorem fetchIsBigEndian : Obligations.FetchIsBigEndian := by
  refine ⟨fun s => ?_, fun bytes s k hk hfit => load_read hfit s hk, fun bytes s k hk hfit => ?_⟩
  · exact ⟨s.fetchWord_toNat, family_joinBytes _ _, fieldX_joinBytes _ _, fieldY_joinBytes _ _,
      fieldN_joinBytes _ _, fieldNN_joinBytes _ _⟩
  · calc ((load bytes s).2.setPc (BitVec.ofNat 16 (0x200 + k))).fetchWord.toNat
        = (joinBytes bytes[k] bytes[k + 1]).toNat := congrArg BitVec.toNat (load_fetchWord hfit s hk)
      _ = bytes[k].toNat * 256 + bytes[k + 1].toNat := joinBytes_toNat _ _

end Sys2Proof.Machine

/-! CLS (41_control_flow.md R140): the one word that decodes to it, and what its meaning leaves in the state. -/

namespace Sys2Proof

/-! ### The word of CLS -/

theorem decodeFamily0_eq_cls_iff (op : Word) : decodeFamily0 op = .ok .cls ↔ op = 0x00E0 := by
  unfold decodeFamily0
  split
  case isTrue h => exact iff_of_true rfl h
  case isFalse h => exact iff_of_false (by split <;> nofun) h

theorem decodeFamily8_ne_cls (op : Word) : decodeFamily8 op ≠ .ok .cls := by
  unfold decodeFamily8
  split <;> nofun

theorem decodeFamilyE_ne_cls (op : Word) : decodeFamilyE op ≠ .ok .cls := by
  unfold decodeFamilyE
  split <;> nofun

theorem decodeFamilyF_ne_cls (op : Word) : decodeFamilyF op ≠ .ok .cls := by
  unfold decodeFamilyF
  split <;> nofun

/-- Only family 0 holds CLS, and that family is matched on the whole word (R97). -/
theorem decodeWord_eq_cls_iff (op : Word) : decodeWord op = .ok .cls ↔ op = 0x00E0 := by
  constructor
  · intro h
    unfold decodeWord at h
    split at h
    case h_1 => exact (decodeFamily0_eq_cls_iff op).1 h
    case h_9 => exact absurd h (decodeFamily8_ne_cls op)
    case h_15 => exact absurd h (decodeFamilyE_ne_cls op)
    case h_16 => exact absurd h (decodeFamilyF_ne_cls op)
    all_goals nomatch h
  · rintro rfl
    rfl

theorem cls_encodedAs : EncodedAs .cls 0x00E0 := fun w =>
  (decodeWord_eq_cls_iff w).trans BitVec.toNat_inj.symm

end Sys2Proof

namespace Sys2Proof.Machine

/-! ### The meaning of CLS -/

/-- Replacing the display leaves every piece of the state but the display's bytes. -/
theorem State.setDisplay_frame (s : State) (d : Vector Byte 256) :
    Frame s (s.setDisplay d) (fun e => ∃ k, e = .displayByte k) := by
  intro e he
  cases e with
  | displayByte k => exact absurd ⟨k, rfl⟩ he
  | _ => rfl

theorem exec_cls (s : State) : exec .cls s = .next (s.setDisplay (Vector.replicate 256 0)) := rfl

/-- Settles O32: the word by the families of the decoder, the state as the one with a blank display. -/
theorem clsClearsTheDisplay : Obligations.ClsClearsTheDisplay := by
  refine ⟨cls_encodedAs, fun s => ⟨_, exec_cls s, fun k => ?_, s.setDisplay_frame _⟩⟩
  rw [State.setDisplay_display, Fin.getElem_fin, Vector.getElem_replicate]

end Sys2Proof.Machine

/-! The word of an instruction (30_encoding.md R92, R94): every word that decodes is the encoding of what it decodes to, so an
instruction whose encoding decodes back to it has that one word. -/

namespace Sys2Proof

/-! ### A word from its fields -/

section
variable {f : Nat} {w : Word}

theorem family_lt (w : Word) : family w < 16 := (slice w 12 4).isLt

theorem shapeA_of_fields (hf : family w = f) : shapeA f (fieldNNN w) = w := by
  subst hf
  apply BitVec.eq_of_toNat_eq
  rw [shapeA_toNat (family_lt w), family_eq, fieldNNN_toNat]
  omega

theorem shapeRI_of_fields {nn : Byte} (hf : family w = f) (hnn : (fieldNN w).toNat = nn.toNat) :
    shapeRI f (fieldX w) nn = w := by
  subst hf
  apply BitVec.eq_of_toNat_eq
  rw [shapeRI_toNat (family_lt w), family_eq, fieldX_val, ← hnn, fieldNN_toNat]
  omega

theorem shapeRRN_of_fields {n : Nibble} (hf : family w = f) (hn : (fieldN w).toNat = n.toNat) :
    shapeRRN f (fieldX w) (fieldY w) n = w := by
  subst hf
  apply BitVec.eq_of_toNat_eq
  rw [shapeRRN_toNat (family_lt w), family_eq, fieldX_val, fieldY_val, ← hn, fieldN_toNat]
  omega

end

/-! ### What decodes is an encoding -/

section
variable {w : Word} {i : Instr}

theorem encode_of_decodeFamily0 (hf : family w = 0x0) (h : decodeFamily0 w = .ok i) : encode i = w := by
  unfold decodeFamily0 at h
  split at h
  case isTrue hcls => cases h; exact hcls.symm
  case isFalse =>
    split at h
    case isTrue hret => cases h; exact hret.symm
    case isFalse => cases h; exact shapeA_of_fields hf

theorem encode_of_decodeFamily8 (hf : family w = 0x8) (h : decodeFamily8 w = .ok i) : encode i = w := by
  unfold decodeFamily8 at h
  split at h
  case h_10 => nomatch h
  all_goals
    cases h
    exact shapeRRN_of_fields hf (by assumption)

theorem encode_of_decodeFamilyE (hf : family w = 0xE) (h : decodeFamilyE w = .ok i) : encode i = w := by
  unfold decodeFamilyE at h
  split at h
  case h_3 => nomatch h
  all_goals
    cases h
    exact shapeRI_of_fields hf (by assumption)

theorem encode_of_decodeFamilyF (hf : family w = 0xF) (h : decodeFamilyF w = .ok i) : encode i = w := by
  unfold decodeFamilyF at h
  split at h
  case h_10 => nomatch h
  all_goals
    cases h
    exact shapeRI_of_fields hf (by assumption)

/-- By the family first, as the decoder does (R94); the families with one instruction are grouped by their shape of R92. -/
theorem encode_of_decodeWord (h : decodeWord w = .ok i) : encode i = w := by
  unfold decodeWord at h
  split at h
  case h_1 hf => exact encode_of_decodeFamily0 hf h
  case h_9 hf => exact encode_of_decodeFamily8 hf h
  case h_15 hf => exact encode_of_decodeFamilyE hf h
  case h_16 =>
    have hf : family w = 0xF := by have := family_lt w; grind
    exact encode_of_decodeFamilyF hf h
  case h_2 | h_3 | h_11 | h_12 => cases h; exact shapeA_of_fields (by assumption)
  case h_4 | h_5 | h_7 | h_8 | h_13 => cases h; exact shapeRI_of_fields (by assumption) rfl
  case h_6 | h_10 | h_14 => cases h; exact shapeRRN_of_fields (by assumption) rfl

/-- An instruction whose encoding decodes back to it has no other word. -/
theorem encodedAs_of_encode {n : Nat} (hdec : decodeWord (encode i) = .ok i) (hn : (encode i).toNat = n) :
    EncodedAs i n := by
  subst hn
  intro w
  constructor
  · intro h
    rw [encode_of_decodeWord h]
  · intro h
    rw [BitVec.eq_of_toNat_eq h, hdec]

end

end Sys2Proof

/-! Immediate loads and additions (42_alu.md R160, R161): the words of families 6 and 7, and the one register they write. -/

namespace Sys2Proof

/-! ### The words of 6XNN and 7XNN -/

theorem decodeWord_of_family_6 {w : Word} (hf : family w = 0x6) :
    decodeWord w = .ok (.ldImm (fieldX w) (fieldNN w)) := by
  simp only [decodeWord, hf]

theorem decodeWord_of_family_7 {w : Word} (hf : family w = 0x7) :
    decodeWord w = .ok (.addImm (fieldX w) (fieldNN w)) := by
  simp only [decodeWord, hf]

theorem decodeWord_encode_ldImm (x : Reg) (nn : Byte) : decodeWord (encode (.ldImm x nn)) = .ok (.ldImm x nn) := by
  rw [encode, decodeWord_of_family_6 (family_shapeRI (by decide) x nn), fieldX_shapeRI (by decide),
    fieldNN_shapeRI (by decide)]

theorem decodeWord_encode_addImm (x : Reg) (nn : Byte) : decodeWord (encode (.addImm x nn)) = .ok (.addImm x nn) := by
  rw [encode, decodeWord_of_family_7 (family_shapeRI (by decide) x nn), fieldX_shapeRI (by decide),
    fieldNN_shapeRI (by decide)]

theorem ldImm_encodedAs (x : Reg) (nn : Byte) : EncodedAs (.ldImm x nn) (0x6000 + x.val * 256 + nn.toNat) :=
  encodedAs_of_encode (decodeWord_encode_ldImm x nn) (shapeRI_toNat (by decide) x nn)

theorem addImm_encodedAs (x : Reg) (nn : Byte) : EncodedAs (.addImm x nn) (0x7000 + x.val * 256 + nn.toNat) :=
  encodedAs_of_encode (decodeWord_encode_addImm x nn) (shapeRI_toNat (by decide) x nn)

end Sys2Proof

namespace Sys2Proof.Machine

/-! ### Writing one register -/

theorem State.setReg_get_same (s : State) (x : Reg) (b : Byte) : (s.setReg x b).v[x] = b := by
  rw [State.setReg_v, getElem_setReg, if_pos rfl]

theorem State.setReg_get_of_ne (s : State) {x y : Reg} (hxy : x ≠ y) (b : Byte) : (s.setReg x b).v[y] = s.v[y] := by
  rw [State.setReg_v, getElem_setReg, if_neg hxy]

/-- Writing a register leaves every piece of the state but that register, so V[0xF] too unless it is the one written. -/
theorem State.setReg_frame (s : State) (x : Reg) (b : Byte) : Frame s (s.setReg x b) (· = .reg x) := by
  intro e he
  cases e with
  | reg y => exact s.setReg_get_of_ne (fun hxy => he (congrArg Elem.reg hxy.symm)) b
  | _ => rfl

/-! ### The meaning of 6XNN and 7XNN -/

theorem exec_ldImm (s : State) (x : Reg) (nn : Byte) : exec (.ldImm x nn) s = .next (s.setReg x nn) := rfl

theorem exec_addImm (s : State) (x : Reg) (nn : Byte) :
    exec (.addImm x nn) s = .next (s.setReg x (s.v[x] + nn)) := rfl

/-- Settles O41: the word by the encoder's round trip, the state as the one with V[x] written. -/
theorem ldImmLoads : Obligations.LdImmLoads := fun s x nn =>
  ⟨ldImm_encodedAs x nn, _, exec_ldImm s x nn, s.setReg_get_same x nn, s.setReg_frame x nn⟩

/-- Settles O42: byte addition is addition modulo 256, and the one register written is V[x]. -/
theorem addImmWraps : Obligations.AddImmWraps := by
  intro s x nn
  refine ⟨addImm_encodedAs x nn, _, exec_addImm s x nn, ?_, s.setReg_frame x _⟩
  rw [State.setReg_get_same, BitVec.toNat_add]

end Sys2Proof.Machine

/-! The pixel observed from outside (43_graphics.md R190, R192): where the packed bit of a pixel stands in the display. -/

namespace Sys2Proof.Machine

/-- The place of a pixel written out: bit `7 - px % 8` of byte `py * 8 + px / 8` (R190). -/
theorem pixel_eq_getLsbD (d : Vector Byte 256) (px : Fin 64) (py : Fin 32) {k : Fin 256}
    (hk : k.val = py.val * 8 + px.val / 8) : pixel d px py = d[k].getLsbD (7 - px.val % 8) := by
  obtain rfl : k = pixelIndex px py := Fin.ext hk
  rfl

/-- Settles O30: the observed pixel is the one at the wrapped coordinate, whose place R190 gives. -/
theorem getPixelReadsTheWrappedPixel : Obligations.GetPixelReadsTheWrappedPixel := fun s x y _ hk =>
  pixel_eq_getLsbD s.display ⟨x % 64, Nat.mod_lt _ (by decide)⟩ ⟨y % 32, Nat.mod_lt _ (by decide)⟩ hk

end Sys2Proof.Machine

/-! The key wait (44_input.md R212): the word of FX0A, and its two answers, a retry while no key is held and else the least
held key. -/

namespace Sys2Proof

/-! ### The word of FX0A -/

theorem decodeWord_of_family_F {w : Word} (hf : family w = 0xF) : decodeWord w = decodeFamilyF w := by
  simp only [decodeWord, hf]

theorem decodeFamilyF_of_fieldNN_0A {w : Word} (hnn : (fieldNN w).toNat = 0x0A) :
    decodeFamilyF w = .ok (.ldVxK (fieldX w)) := by
  simp only [decodeFamilyF, hnn]

theorem decodeWord_encode_ldVxK (x : Reg) : decodeWord (encode (.ldVxK x)) = .ok (.ldVxK x) := by
  have hnn : (fieldNN (shapeRI 0xF x 0x0A)).toNat = 0x0A := by rw [fieldNN_shapeRI (by decide)]; rfl
  rw [encode, decodeWord_of_family_F (family_shapeRI (by decide) x _), decodeFamilyF_of_fieldNN_0A hnn,
    fieldX_shapeRI (by decide)]

theorem ldVxK_encodedAs (x : Reg) : EncodedAs (.ldVxK x) (0xF00A + x.val * 256) := by
  refine encodedAs_of_encode (decodeWord_encode_ldVxK x) ?_
  calc (encode (.ldVxK x)).toNat = 0xF * 4096 + x.val * 256 + 0x0A := shapeRI_toNat (by decide) x 0x0A
    _ = 0xF00A + x.val * 256 := by omega

end Sys2Proof

namespace Sys2Proof.Machine

/-! ### The meaning of FX0A -/

theorem exec_ldVxK_of_no_key {s : State} (h : s.keys = 0) (x : Reg) :
    exec (.ldVxK x) s = .next (s.setPc (s.pc - 2)) := if_pos h

theorem exec_ldVxK_of_key {s : State} (h : s.keys ≠ 0) (x : Reg) :
    exec (.ldVxK x) s = .next (s.setReg x (leastKey s.keys)) := if_neg h

/-- Settles O53: without a key FX0A is the retry; with one it writes V[x] alone, and `leastKey_spec` says what. -/
theorem keyWaitTakesTheLeastKey : Obligations.KeyWaitTakesTheLeastKey := by
  refine fun s x => ⟨ldVxK_encodedAs x, fun h => exec_ldVxK_of_no_key h x, fun h => ?_⟩
  obtain ⟨k, hk, hheld, hleast⟩ := leastKey_spec h
  refine ⟨_, exec_ldVxK_of_key h x, ?_⟩
  rw [State.setReg_get_same, hk]
  exact ⟨Nat.le_of_lt_succ k.isLt, hheld, hleast, s.setReg_frame x _⟩

end Sys2Proof.Machine

/-! The decoder and the encoder are inverse (30_encoding.md R94 to R100): the encoding of a well-formed instruction decodes back
to it, what decodes is well formed, and the words that do not decode are those of R100. -/

namespace Sys2Proof

/-! ### From the instruction to the word and back -/

theorem sys_wellFormed_iff {nnn : Addr} : (Instr.sys nnn).wellFormed = true ↔ nnn ≠ 0x0E0 ∧ nnn ≠ 0x0EE := by
  simp [Instr.wellFormed]

/-- A word of family 0 is CLS or RET only by its low twelve bits (R97). -/
theorem shapeA_family0_ne {nnn c : Addr} (h : nnn ≠ c) : shapeA 0x0 nnn ≠ shapeA 0x0 c := by
  intro heq
  exact h (by rw [← fieldNNN_shapeA (f := 0x0) (by decide) nnn, heq, fieldNNN_shapeA (by decide)])

theorem decodeWord_encode_sys {nnn : Addr} (h : (Instr.sys nnn).wellFormed = true) :
    decodeWord (encode (.sys nnn)) = .ok (.sys nnn) := by
  obtain ⟨hcls, hret⟩ := sys_wellFormed_iff.1 h
  have hcls' : shapeA 0x0 nnn ≠ 0x00E0 := shapeA_family0_ne hcls
  have hret' : shapeA 0x0 nnn ≠ 0x00EE := shapeA_family0_ne hret
  simp (disch := decide) only [encode, decodeWord, family_shapeA, decodeFamily0, hcls', hret', if_false,
    fieldNNN_shapeA]

/-- By the shape of the encoding (R92), then by what its family selects on (R97, R99). -/
theorem decodeWord_encode {i : Instr} (h : i.wellFormed = true) : decodeWord (encode i) = .ok i := by
  cases i with
  | cls | ret => rfl
  | sys nnn => exact decodeWord_encode_sys h
  | jp | call | ldI | jpV0 =>
    simp (disch := decide) only [encode, decodeWord, family_shapeA, fieldNNN_shapeA]
  | seImm | sneImm | ldImm | addImm | rnd =>
    simp (disch := decide) only [encode, decodeWord, family_shapeRI, fieldX_shapeRI, fieldNN_shapeRI]
  | seReg | sneReg | drw =>
    simp (disch := decide) only [encode, decodeWord, family_shapeRRN, fieldX_shapeRRN, fieldY_shapeRRN, fieldN_shapeRRN]
  | ldReg | orReg | andReg | xorReg | addReg | subReg | shrReg | subnReg | shlReg =>
    simp (disch := decide) only [encode, decodeWord, family_shapeRRN, decodeFamily8, fieldX_shapeRRN, fieldY_shapeRRN,
      fieldN_shapeRRN, BitVec.reduceToNat]
  | skp | sknp =>
    simp (disch := decide) only [encode, decodeWord, family_shapeRI, decodeFamilyE, fieldX_shapeRI, fieldNN_shapeRI,
      BitVec.reduceToNat]
  | ldVxDt | ldVxK | ldDtVx | ldStVx | addI | ldF | ldB | storeRegs | loadRegs =>
    simp (disch := decide) only [encode, decodeWord, family_shapeRI, decodeFamilyF, fieldX_shapeRI, fieldNN_shapeRI,
      BitVec.reduceToNat]

/-- Settles O2, by the shapes of R92. -/
theorem decodeOfEncode : Obligations.DecodeOfEncode := fun _ h => decodeWord_encode h

/-! ### From the word to the instruction and back -/

section
variable {w : Word} {i : Instr}

theorem wellFormed_of_decodeFamily0 (hf : family w = 0x0) (h : decodeFamily0 w = .ok i) : i.wellFormed = true := by
  unfold decodeFamily0 at h
  split at h
  case isTrue => cases h; rfl
  case isFalse hcls =>
    split at h
    case isTrue => cases h; rfl
    case isFalse hret =>
      cases h
      have hw : shapeA 0x0 (fieldNNN w) = w := shapeA_of_fields hf
      have hne : ∀ c : Addr, w ≠ shapeA 0x0 c → fieldNNN w ≠ c := fun c hc heq => hc (heq ▸ hw.symm)
      exact sys_wellFormed_iff.2 ⟨hne 0x0E0 hcls, hne 0x0EE hret⟩

theorem wellFormed_of_decodeFamily8 (h : decodeFamily8 w = .ok i) : i.wellFormed = true := by
  unfold decodeFamily8 at h
  split at h <;> cases h <;> rfl

theorem wellFormed_of_decodeFamilyE (h : decodeFamilyE w = .ok i) : i.wellFormed = true := by
  unfold decodeFamilyE at h
  split at h <;> cases h <;> rfl

theorem wellFormed_of_decodeFamilyF (h : decodeFamilyF w = .ok i) : i.wellFormed = true := by
  unfold decodeFamilyF at h
  split at h <;> cases h <;> rfl

/-- Only SYS has an operand that could be ill formed, and family 0 hands it none (R97). -/
theorem wellFormed_of_decodeWord (h : decodeWord w = .ok i) : i.wellFormed = true := by
  unfold decodeWord at h
  split at h
  case h_1 hf => exact wellFormed_of_decodeFamily0 hf h
  case h_9 => exact wellFormed_of_decodeFamily8 h
  case h_15 => exact wellFormed_of_decodeFamilyE h
  case h_16 => exact wellFormed_of_decodeFamilyF h
  all_goals cases h; rfl

/-- Settles O3: well-formedness from the family, the word from its fields. -/
theorem encodeOfDecode : Obligations.EncodeOfDecode := fun _ _ h =>
  ⟨wellFormed_of_decodeWord h, encode_of_decodeWord h⟩

end

/-- A well-formed instruction is encoded by its one word. -/
theorem encodedAs_of_wellFormed {i : Instr} {n : Nat} (h : i.wellFormed = true) (hn : (encode i).toNat = n) :
    EncodedAs i n :=
  encodedAs_of_encode (decodeWord_encode h) hn

/-! ### The words that do not decode -/

/-- The words of R100, by their number. -/
def Unknown (w : Word) : Prop :=
  (w.toNat / 4096 = 0x8 ∧ w.toNat % 16 ∈ [0x8, 0x9, 0xA, 0xB, 0xC, 0xD, 0xF]) ∨
  (w.toNat / 4096 = 0xE ∧ w.toNat % 256 ∉ [0x9E, 0xA1]) ∨
  (w.toNat / 4096 = 0xF ∧ w.toNat % 256 ∉ [0x07, 0x0A, 0x15, 0x18, 0x1E, 0x29, 0x33, 0x55, 0x65])

/-- The answer of the decoder for `w` is right: an error exactly if `p` holds, and then the one that names `w`. -/
def ErrorIff (w : Word) (p : Prop) (r : Except DecodeError Instr) : Prop :=
  (p → r = .error (.unknownInstruction w)) ∧ (¬ p → ∃ i, r = .ok i)

section
variable {w : Word} {p : Prop}

theorem errorIff_ok {i : Instr} (h : ¬ p) : ErrorIff w p (.ok i) := ⟨fun hp => absurd hp h, fun _ => ⟨i, rfl⟩⟩

theorem errorIff_error (h : p) : ErrorIff w p (.error (.unknownInstruction w)) := ⟨fun _ => rfl, fun hn => absurd h hn⟩

theorem ErrorIff.congr {q : Prop} {r : Except DecodeError Instr} (h : ErrorIff w p r) (hpq : p ↔ q) :
    ErrorIff w q r := propext hpq ▸ h

end

theorem decodeFamily0_ok (w : Word) : ∃ i, decodeFamily0 w = .ok i := by
  unfold decodeFamily0
  split
  · exact ⟨_, rfl⟩
  · split <;> exact ⟨_, rfl⟩

theorem decodeFamily8_errorIff (w : Word) :
    ErrorIff w (w.toNat % 16 ∈ [0x8, 0x9, 0xA, 0xB, 0xC, 0xD, 0xF]) (decodeFamily8 w) := by
  rw [← fieldN_toNat]
  unfold decodeFamily8
  split
  case h_10 =>
    have hlt : (fieldN w).toNat < 16 := (fieldN w).isLt
    refine errorIff_error ?_
    simp only [List.mem_cons, List.not_mem_nil, or_false]
    grind
  all_goals
    rename_i h
    exact errorIff_ok (by rw [h]; decide)

theorem decodeFamilyE_errorIff (w : Word) : ErrorIff w (w.toNat % 256 ∉ [0x9E, 0xA1]) (decodeFamilyE w) := by
  rw [← fieldNN_toNat]
  unfold decodeFamilyE
  split
  case h_3 =>
    refine errorIff_error ?_
    simp only [List.mem_cons, List.not_mem_nil, or_false]
    grind
  all_goals
    rename_i h
    exact errorIff_ok (by rw [h]; decide)

theorem decodeFamilyF_errorIff (w : Word) :
    ErrorIff w (w.toNat % 256 ∉ [0x07, 0x0A, 0x15, 0x18, 0x1E, 0x29, 0x33, 0x55, 0x65]) (decodeFamilyF w) := by
  rw [← fieldNN_toNat]
  unfold decodeFamilyF
  split
  case h_10 =>
    refine errorIff_error ?_
    simp only [List.mem_cons, List.not_mem_nil, or_false]
    grind
  all_goals
    rename_i h
    exact errorIff_ok (by rw [h]; decide)

theorem unknown_iff_of_family_8 {w : Word} (hf : w.toNat / 4096 = 0x8) :
    w.toNat % 16 ∈ [0x8, 0x9, 0xA, 0xB, 0xC, 0xD, 0xF] ↔ Unknown w := by
  simp only [Unknown, hf, Nat.reduceEqDiff, true_and, false_and, or_false]

theorem unknown_iff_of_family_E {w : Word} (hf : w.toNat / 4096 = 0xE) :
    w.toNat % 256 ∉ [0x9E, 0xA1] ↔ Unknown w := by
  simp only [Unknown, hf, Nat.reduceEqDiff, true_and, false_and, or_false, false_or]

theorem unknown_iff_of_family_F {w : Word} (hf : w.toNat / 4096 = 0xF) :
    w.toNat % 256 ∉ [0x07, 0x0A, 0x15, 0x18, 0x1E, 0x29, 0x33, 0x55, 0x65] ↔ Unknown w := by
  simp only [Unknown, hf, Nat.reduceEqDiff, true_and, false_and, false_or]

theorem not_unknown_of_family {w : Word} (h : w.toNat / 4096 < 0x8 ∨ (0x8 < w.toNat / 4096 ∧ w.toNat / 4096 < 0xE)) :
    ¬ Unknown w := by
  rintro (⟨hf, -⟩ | ⟨hf, -⟩ | ⟨hf, -⟩) <;> omega

/-- Decoding is total, and fails for exactly the words of R100: by the family, as the decoder goes (R94). -/
theorem decodeWord_errorIff (w : Word) : ErrorIff w (Unknown w) (decodeWord w) := by
  have hlt := family_lt w
  rw [family_eq] at hlt
  unfold decodeWord
  rw [family_eq]
  split
  case h_1 hf =>
    obtain ⟨i, hi⟩ := decodeFamily0_ok w
    exact hi ▸ errorIff_ok (not_unknown_of_family (by omega))
  case h_9 hf => exact (decodeFamily8_errorIff w).congr (unknown_iff_of_family_8 hf)
  case h_15 hf => exact (decodeFamilyE_errorIff w).congr (unknown_iff_of_family_E hf)
  case h_16 =>
    have hf : w.toNat / 4096 = 0xF := by grind
    exact (decodeFamilyF_errorIff w).congr (unknown_iff_of_family_F hf)
  all_goals exact errorIff_ok (not_unknown_of_family (by omega))

theorem decodeWord_of_unknown {w : Word} (h : Unknown w) : decodeWord w = .error (.unknownInstruction w) :=
  (decodeWord_errorIff w).1 h

theorem decodeWord_ok_of_not_unknown {w : Word} (h : ¬ Unknown w) : ∃ i, decodeWord w = .ok i :=
  (decodeWord_errorIff w).2 h

theorem decodeWord_error_iff_unknown (w : Word) : decodeWord w = .error (.unknownInstruction w) ↔ Unknown w := by
  refine ⟨fun h => ?_, decodeWord_of_unknown⟩
  by_contra hn
  obtain ⟨i, hi⟩ := decodeWord_ok_of_not_unknown hn
  rw [hi] at h
  nomatch h

/-- Settles O4: the families that hold unknown words, each by what it selects on. -/
theorem unknownWordsAreExactlyThese : Obligations.UnknownWordsAreExactlyThese := fun w =>
  ⟨decodeWord_error_iff_unknown w, (Classical.em (Unknown w)).imp decodeWord_of_unknown decodeWord_ok_of_not_unknown⟩

/-! ### Bytes -/

theorem decode_encodeBytes_append {i : Instr} (h : i.wellFormed = true) (rest : List Byte) :
    decode (encodeBytes i ++ rest) = .ok (i, rest) := by
  calc decode (encodeBytes i ++ rest)
      = (decodeWord (joinBytes (highByte (encode i)) (lowByte (encode i)))).map (fun i => (i, rest)) :=
        decode_cons_cons _ _ rest
    _ = .ok (i, rest) := by rw [joinBytes_split, decodeWord_encode h]; rfl

/-- Settles O5: two bytes join to the word of the instruction; one byte or none is no word. -/
theorem bytesDecodeTwoAtATime : Obligations.BytesDecodeTwoAtATime := by
  refine ⟨fun i rest h => decode_encodeBytes_append h rest, fun bs hlen => ?_⟩
  match bs with
  | [] | [_] => rfl
  | _ :: _ :: _ => simp only [List.length_cons] at hlen; omega

end Sys2Proof

/-! What an instruction can do, said once for all of them (10_state.md R38, 40_step_dispatch.md section 3): it answers a next
state, it writes only what its row of R38 names, it records at most one latch and then changes nothing else, and it stores
only to a checked range. -/

namespace Sys2Proof.Machine

/-! ### Frames: what each update of the state leaves unchanged -/

section
variable {s t u : State} {w w' : Elem → Prop}

theorem frame_refl (s : State) (w : Elem → Prop) : Frame s s w := by
  intro e _
  cases e <;> rfl

theorem frame_mono (h : Frame s t w) (hw : ∀ e, w e → w' e) : Frame s t w' := fun e he => h e fun hwe => he (hw e hwe)

theorem frame_trans (h : Frame s t w) (h' : Frame t u w) : Frame s u w := by
  intro e he
  have h1 := h e he
  have h2 := h' e he
  cases e <;> exact h2.trans h1

end

section
variable (s : State)

theorem State.setRegFlag_frame (x : Reg) (b : Byte) (f : Bool) :
    Frame s (s.setRegFlag x b f) (fun e => e = .reg x ∨ e = .reg 15) :=
  frame_trans (frame_mono (s.setReg_frame x b) fun _ => .inl)
    (frame_mono ((s.setReg x b).setReg_frame 15 _) fun _ => .inr)

theorem State.setI_frame (a : Word) : Frame s (s.setI a) (· = .i) := by
  intro e he
  cases e with
  | i => exact absurd rfl he
  | _ => rfl

theorem State.setPc_frame (a : Word) : Frame s (s.setPc a) (· = .pc) := by
  intro e he
  cases e with
  | pc => exact absurd rfl he
  | _ => rfl

theorem State.setDt_frame (b : Byte) : Frame s (s.setDt b) (· = .dt) := by
  intro e he
  cases e with
  | dt => exact absurd rfl he
  | _ => rfl

theorem State.setSt_frame (b : Byte) : Frame s (s.setSt b) (· = .st) := by
  intro e he
  cases e with
  | st => exact absurd rfl he
  | _ => rfl

theorem State.setKeys_frame (k : Word) : Frame s (s.setKeys k) (· = .keys) := by
  intro e he
  cases e with
  | keys => exact absurd rfl he
  | _ => rfl

theorem State.setVblank_frame (b : Bool) : Frame s (s.setVblank b) (· = .vblank) := by
  intro e he
  cases e with
  | vblank => exact absurd rfl he
  | _ => rfl

theorem State.setHalt_frame (c : HaltCode) : Frame s (s.setHalt c) (· = .haltCode) := by
  intro e he
  cases e with
  | haltCode => exact absurd rfl he
  | _ => rfl

theorem State.setFault_frame (c : FaultCode) : Frame s (s.setFault c) (· = .fault) := by
  intro e he
  cases e with
  | fault => exact absurd rfl he
  | _ => rfl

theorem State.setDraws_frame (n : Nat) : Frame s (s.setDraws n) (· = .draws) := by
  intro e he
  cases e with
  | draws => exact absurd rfl he
  | _ => rfl

/-- Popping writes no slot, pushing one: a slot whose value stays is unchanged. -/
theorem State.setStack_frame (k : Vector Word 16) (n : Fin 17) :
    Frame s (s.setStack k n) (fun e => (∃ j, e = .stackSlot j ∧ k[j] ≠ s.stack[j]) ∨ e = .sp) := by
  intro e he
  cases e with
  | sp => exact absurd (.inr rfl) he
  | stackSlot j => exact Classical.not_not.1 fun hne => he (.inl ⟨j, rfl, hne⟩)
  | _ => rfl

/-- Replacing the register file leaves the registers whose value stays. -/
theorem State.setRegs_frame (v : Vector Byte 16) :
    Frame s (s.setRegs v) (fun e => ∃ k : Reg, e = .reg k ∧ v[k] ≠ s.v[k]) := by
  intro e he
  cases e with
  | reg k => exact Classical.not_not.1 fun hne => he ⟨k, rfl, hne⟩
  | _ => rfl

/-- Loading `V[0]` to `V[x]` leaves the registers above `V[x]` (R228). -/
theorem State.loadedRegs_frame (x : Reg) :
    Frame s (s.setRegs (s.loadedRegs x)) (fun e => ∃ k : Reg, k ≤ x ∧ e = .reg k) := by
  refine frame_mono (s.setRegs_frame _) ?_
  rintro e ⟨k, he, hne⟩
  refine ⟨k, Classical.not_not.1 fun hk => hne ?_, he⟩
  rw [State.loadedRegs_get, if_neg hk]

/-- A store leaves the bytes outside its range. -/
theorem State.store_frame (a : Nat) (bs : List Byte) :
    Frame s (s.store a bs) (fun e => ∃ k, k < bs.length ∧ e = .memByte (a + k)) := by
  intro e he
  cases e with
  | memByte c =>
    refine (Memory.read_writeBytes s.mem a c bs).trans (dif_neg fun hc => he ⟨c - a, by omega, ?_⟩)
    rw [Nat.add_sub_cancel' hc.1]
  | _ => rfl

theorem State.store_effAddr_frame (bs : List Byte) :
    Frame s (s.store (s.effAddr 0) bs) (fun e => ∃ k, k < bs.length ∧ e = .memByte (s.effAddr k)) :=
  s.store_frame (s.effAddr 0) bs

end

/-! ### Next states -/

theorem next_eq {s t : State} {r : Result} (h : r = .next s) (h' : r = .next t) : s = t :=
  Host.Outcome.next.inj (h.symm.trans h')

theorem unlessFault_returns {check : Option FaultCode} {s : State} {go : Result} (h : ∃ t, go = .next t) :
    ∃ t, unlessFault check s go = .next t := by
  cases check with
  | none => exact h
  | some c => exact ⟨_, rfl⟩

theorem exec_drw_of_vblank {s : State} (h : s.vblank = true) (x y : Reg) (n : Nibble) :
    exec (.drw x y n) s = unlessFault (s.checkRange n.toNat) s
      (.next (((s.setVblank false).setDisplay (s.drawn x y n).bits).setFlag (s.drawn x y n).coll)) := if_pos h

theorem exec_drw_of_no_vblank {s : State} (h : s.vblank = false) (x y : Reg) (n : Nibble) :
    exec (.drw x y n) s = .next (s.setPc (s.pc - 2)) := if_neg (by rw [h]; decide)

/-- No meaning stops the model (R120, log 4). -/
theorem exec_returns (i : Instr) (s : State) : ∃ t, exec i s = .next t := by
  cases i with
  | call nnn =>
    obtain ⟨t, ht, -⟩ := exec_call_sp s nnn
    exact ⟨t, ht⟩
  | ret =>
    obtain ⟨t, ht, -⟩ := exec_ret_sp s
    exact ⟨t, ht⟩
  | ldVxK x =>
    by_cases hk : s.keys = 0
    · exact ⟨_, exec_ldVxK_of_no_key hk x⟩
    · exact ⟨_, exec_ldVxK_of_key hk x⟩
  | drw x y n =>
    cases hv : s.vblank with
    | false => exact ⟨_, exec_drw_of_no_vblank hv x y n⟩
    | true => exact exec_drw_of_vblank hv x y n ▸ unlessFault_returns ⟨_, rfl⟩
  | skp | sknp | ldB | storeRegs | loadRegs => exact unlessFault_returns ⟨_, rfl⟩
  | _ => exact ⟨_, rfl⟩

/-! ### The frame of every instruction -/

theorem frame_of_next {s t u : State} {w : Elem → Prop} (h : Host.Outcome.next u = (Host.Outcome.next t : Result))
    (hf : Frame s u w) : Frame s t w :=
  Host.Outcome.next.inj h ▸ hf

theorem frame_of_skipIf {s t : State} {c : Bool} (h : skipIf c s = .next t) : Frame s t (· = .pc) := by
  obtain rfl := skipIf_next.1 h
  cases c
  · exact frame_refl s _
  · exact s.setPc_frame _

theorem frame_of_unlessFault {s t : State} {w : Elem → Prop} {check : Option FaultCode} {go : Result}
    (h : unlessFault check s go = .next t) (hgo : go = .next t → Frame s t w) :
    Frame s t (fun e => w e ∨ e = .fault) := by
  rcases unlessFault_cases h with ⟨c, -, rfl⟩ | ⟨-, hnext⟩
  · exact frame_mono (s.setFault_frame c) fun _ => .inr
  · exact frame_mono (hgo hnext) fun _ => .inl

section
variable {s t : State}

/-- A pop writes no slot (R26, D24). -/
theorem State.pop_frame {target : Word} (h : s.pop = some (target, t)) : Frame s t (· = .sp) := by
  obtain ⟨-, -, ht, -⟩ := State.pop_some h
  rw [ht]
  refine frame_mono (s.setStack_frame _ _) ?_
  rintro e (⟨j, -, hne⟩ | he)
  · exact absurd rfl hne
  · exact he

/-- A push writes the one slot that `sp` names (R26). -/
theorem State.push_frame (h : s.push = some t) :
    Frame s t (fun e => (∃ k, e = .stackSlot k ∧ k.val = s.sp.val) ∨ e = .sp) := by
  obtain ⟨-, -, ht, hslot⟩ := State.push_some h
  rw [ht]
  refine frame_mono (s.setStack_frame _ _) ?_
  rintro e (⟨j, he, hne⟩ | he)
  · refine .inl ⟨j, he, Classical.not_not.1 fun hj => hne ?_⟩
    rw [hslot, if_neg hj]
  · exact .inr he

/-- A pop and the transfer to the popped address (R141). -/
theorem State.pop_setPc_frame {target : Word} (h : s.pop = some (target, t)) :
    Frame s (t.setPc target) (fun e => e = .sp ∨ e = .pc) :=
  frame_trans (frame_mono (State.pop_frame h) fun _ => .inl) (frame_mono (t.setPc_frame _) fun _ => .inr)

/-- A push and the transfer to the called address (R144). -/
theorem State.push_setPc_frame (h : s.push = some t) (target : Word) :
    Frame s (t.setPc target) (fun e => (∃ k, e = .stackSlot k ∧ k.val = s.sp.val) ∨ e = .sp ∨ e = .pc) :=
  frame_trans (frame_mono (State.push_frame h) fun _ => Or.imp_right .inl)
    (frame_mono (t.setPc_frame _) fun _ he => .inr (.inr he))

theorem exec_ret_frame (h : exec .ret s = .next t) : Frame s t (mayWrite s .ret) := by
  cases hp : s.pop with
  | none =>
    obtain rfl := next_eq (exec_ret_of_pop_none hp) h
    exact frame_mono (s.setHalt_frame _) fun _ he => .inr (.inr he)
  | some p =>
    obtain rfl := next_eq (exec_ret_of_pop_some hp) h
    exact frame_mono (State.pop_setPc_frame hp) fun _ => Or.imp_right .inl

theorem exec_call_frame {nnn : Addr} (h : exec (.call nnn) s = .next t) : Frame s t (mayWrite s (.call nnn)) := by
  cases hp : s.push with
  | none =>
    obtain rfl := next_eq (exec_call_of_push_none nnn hp) h
    exact frame_mono (s.setHalt_frame _) fun _ he => .inr (.inr (.inr he))
  | some u =>
    obtain rfl := next_eq (exec_call_of_push_some nnn hp) h
    exact frame_mono (State.push_setPc_frame hp _) fun _ => Or.imp_right (Or.imp_right .inl)

/-- What a proceeding draw writes (R194). -/
theorem State.drawn_frame (s : State) (d : Vector Byte 256) (f : Bool) :
    Frame s (((s.setVblank false).setDisplay d).setFlag f)
      (fun e => (∃ k, e = .displayByte k) ∨ e = .reg 15 ∨ e = .vblank) :=
  frame_trans (frame_trans (frame_mono (s.setVblank_frame _) fun _ he => .inr (.inr he))
    (frame_mono (State.setDisplay_frame _ d) fun _ he => .inl he))
    (frame_mono (State.setReg_frame _ 15 _) fun _ he => .inr (.inl he))

theorem exec_drw_frame {x y : Reg} {n : Nibble} (h : exec (.drw x y n) s = .next t) :
    Frame s t (mayWrite s (.drw x y n)) := by
  cases hv : s.vblank with
  | false =>
    obtain rfl := next_eq (exec_drw_of_no_vblank hv x y n) h
    exact frame_mono (s.setPc_frame _) fun _ he => .inr (.inr (.inr (.inl he)))
  | true =>
    rw [exec_drw_of_vblank hv] at h
    refine frame_mono (frame_of_unlessFault h fun hgo => frame_of_next hgo (s.drawn_frame _ _)) ?_
    rintro e ((he | he | he) | he)
    · exact .inl he
    · exact .inr (.inl he)
    · exact .inr (.inr (.inl he))
    · exact .inr (.inr (.inr (.inr he)))

theorem exec_ldVxK_frame {x : Reg} (h : exec (.ldVxK x) s = .next t) : Frame s t (mayWrite s (.ldVxK x)) := by
  by_cases hk : s.keys = 0
  · obtain rfl := next_eq (exec_ldVxK_of_no_key hk x) h
    exact frame_mono (s.setPc_frame _) fun _ => .inr
  · obtain rfl := next_eq (exec_ldVxK_of_key hk x) h
    exact frame_mono (s.setReg_frame x _) fun _ => .inl

/-- What FX55 writes when its check finds no fault (R227). -/
theorem State.storeRegs_frame (s : State) (x : Reg) :
    Frame s ((s.store (s.effAddr 0) (s.regsUpTo x)).setI (s.advancedI x))
      (fun e => (∃ k, k ≤ x.val ∧ e = .memByte (s.effAddr k)) ∨ e = .i) := by
  refine frame_trans (frame_mono (s.store_effAddr_frame _) ?_) (frame_mono (State.setI_frame _ _) fun _ => .inr)
  rintro e ⟨k, hk, he⟩
  rw [State.regsUpTo_length] at hk
  exact .inl ⟨k, Nat.le_of_lt_succ hk, he⟩

/-- What FX65 writes when its check finds no fault (R228). -/
theorem State.loadRegs_frame (s : State) (x : Reg) :
    Frame s ((s.setRegs (s.loadedRegs x)).setI (s.advancedI x))
      (fun e => (∃ k : Reg, k ≤ x ∧ e = .reg k) ∨ e = .i) :=
  frame_trans (frame_mono (s.loadedRegs_frame x) fun _ => .inl) (frame_mono (State.setI_frame _ _) fun _ => .inr)

/-- Every instruction writes only what its row of R38 names. -/
theorem exec_frame {i : Instr} (h : exec i s = .next t) : Frame s t (mayWrite s i) := by
  cases i with
  | cls => exact frame_of_next h (s.setDisplay_frame _)
  | sys => exact frame_of_next h (frame_refl s _)
  | ret => exact exec_ret_frame h
  | call => exact exec_call_frame h
  | jp | jpV0 => exact frame_of_next h (s.setPc_frame _)
  | seImm | sneImm | seReg | sneReg => exact frame_of_skipIf h
  | ldImm | addImm | ldReg | ldVxDt => exact frame_of_next h (s.setReg_frame _ _)
  | orReg | andReg | xorReg | addReg | subReg | shrReg | subnReg | shlReg =>
    exact frame_of_next h (s.setRegFlag_frame _ _ _)
  | rnd x =>
    exact frame_of_next h (frame_trans (frame_mono (s.setReg_frame x _) fun _ => .inl)
      (frame_mono (State.setDraws_frame _ _) fun _ => .inr))
  | ldI | addI | ldF => exact frame_of_next h (s.setI_frame _)
  | drw => exact exec_drw_frame h
  | skp | sknp => exact frame_of_unlessFault h frame_of_skipIf
  | ldVxK => exact exec_ldVxK_frame h
  | ldDtVx => exact frame_of_next h (s.setDt_frame _)
  | ldStVx => exact frame_of_next h (s.setSt_frame _)
  | ldB => exact frame_of_unlessFault h fun hgo => frame_of_next hgo (s.store_effAddr_frame _)
  | storeRegs x =>
    exact frame_mono (frame_of_unlessFault h fun hgo => frame_of_next hgo (s.storeRegs_frame x)) fun _ => or_assoc.1
  | loadRegs x =>
    exact frame_mono (frame_of_unlessFault h fun hgo => frame_of_next hgo (s.loadRegs_frame x)) fun _ => or_assoc.1

end

/-- Settles O16, instruction by instruction. -/
theorem instructionsWriteOnlyTheirTable : Obligations.InstructionsWriteOnlyTheirTable := fun _ _ _ => exec_frame

end Sys2Proof.Machine

/-! STEP by what it finds (40_step_dispatch.md R120 to R125), and what it does from the reset state. -/

namespace Sys2Proof.Machine

section
variable {s : State}

theorem not_running_iff : ¬ Running s ↔ s.haltCode ≠ .none ∨ s.fault ≠ .none := not_and_or

theorem step_of_not_running (h : ¬ Running s) : step s = .next s := by
  rcases step_cases s with ⟨-, hs⟩ | ⟨hr, -⟩ | ⟨hr, -⟩ | ⟨hr, -⟩
  · exact hs
  all_goals exact absurd hr h

theorem step_of_outside (hr : Running s) (hw : ¬ InWindow s) : step s = .next (s.setFault .pcRange) := by
  rcases step_cases s with ⟨hn, -⟩ | ⟨-, -, hs⟩ | ⟨-, hw', -⟩ | ⟨-, hw', -⟩
  · exact absurd hr hn
  · exact hs
  all_goals exact absurd hw' hw

theorem step_of_decode {i : Instr} (hr : Running s) (hw : InWindow s) (hd : decodeWord s.fetchWord = .ok i) :
    step s = exec i s.fetched := by
  rcases step_cases s with ⟨hn, -⟩ | ⟨-, hn, -⟩ | ⟨-, -, j, hj, hs⟩ | ⟨-, -, ⟨e, he⟩, -⟩
  · exact absurd hr hn
  · exact absurd hw hn
  · rw [hd] at hj
    cases hj
    exact hs
  · rw [hd] at he
    nomatch he

theorem step_of_unknown {e : DecodeError} (hr : Running s) (hw : InWindow s) (hd : decodeWord s.fetchWord = .error e) :
    step s = .next (s.fetched.setHalt .unknownInstruction) := by
  rcases step_cases s with ⟨hn, -⟩ | ⟨-, hn, -⟩ | ⟨-, -, j, hj, -⟩ | ⟨-, -, -, hs⟩
  · exact absurd hr hn
  · exact absurd hw hn
  · rw [hd] at hj
    nomatch hj
  · exact hs

theorem fetchWord_eq_of_toNat {op : Word}
    (h : op.toNat = (s.read s.pc.toNat).toNat * 256 + (s.read (s.pc.toNat + 1)).toNat) : s.fetchWord = op :=
  BitVec.eq_of_toNat_eq (s.fetchWord_toNat.trans h.symm)

theorem pc_add_two_toNat (h : s.pc.toNat ≤ 0xFFE) : (s.pc + 2).toNat = s.pc.toNat + 2 := by
  have htwo : (2 : Word).toNat = 2 := rfl
  rw [BitVec.toNat_add, htwo]
  omega

theorem pc_add_four_toNat (h : s.pc.toNat ≤ 0xFFE) : (s.pc + 2 + 2).toNat = s.pc.toNat + 4 := by
  have htwo : (2 : Word).toNat = 2 := rfl
  rw [BitVec.toNat_add, pc_add_two_toNat h, htwo]
  omega

end

/-- Settles O6, through `step_of_decode`. -/
theorem stepRunsTheDecodedInstruction : Obligations.StepRunsTheDecodedInstruction := by
  intro s i op hr hw hop hd
  obtain rfl := fetchWord_eq_of_toNat hop
  exact ⟨wellFormed_of_decodeWord hd, step_of_decode hr hw hd, pc_add_two_toNat hw.2⟩

/-- Settles O7, through `step_of_not_running`. -/
theorem stoppedStepChangesNothing : Obligations.StoppedStepChangesNothing := fun _ h =>
  step_of_not_running (not_running_iff.2 h)

/-- Settles O8, through `step_of_outside`. -/
theorem fetchOutsideTheWindowFaults : Obligations.FetchOutsideTheWindowFaults := fun _ hr hpc =>
  step_of_outside hr fun hw => by obtain ⟨hlo, hhi⟩ := hw; omega

/-- Settles O10, by what STEP finds. -/
theorem stepAlwaysReturns : Obligations.StepAlwaysReturns := by
  intro s
  rcases step_cases s with ⟨-, h⟩ | ⟨-, -, h⟩ | ⟨-, -, i, -, h⟩ | ⟨-, -, -, h⟩
  · exact ⟨_, h⟩
  · exact ⟨_, h⟩
  · exact h ▸ exec_returns i _
  · exact ⟨_, h⟩

/-- Settles O1: each word is computed. -/
theorem sampleWordsDecode : Obligations.SampleWordsDecode := by
  unfold Obligations.SampleWordsDecode
  decide

/-- Settles O13: nothing is listed in memory and nothing is pushed. -/
theorem resetMeetsTheInvariant : Obligations.ResetMeetsTheInvariant :=
  ⟨State.reset_mem_wf, nofun, .inl rfl, fun _ h => absurd h (Nat.not_lt_zero _), by decide⟩

theorem unlisted_of_ge {a : Nat} (h : 80 ≤ a) : unlisted a = 0 := dif_neg (Nat.not_lt.2 h)

theorem unlisted_of_font (a : Fin 80) : unlisted a.val = Config.font a := dif_pos a.isLt

/-- Settles O23: memory by `unlisted`, every other element by its value. -/
theorem resetState : Obligations.ResetState := by
  refine ⟨unlisted_of_font, fun a => unlisted_of_ge, fun k => ?_, fun k => ?_, fun x => ?_, rfl, rfl, rfl, rfl, rfl, rfl,
    rfl, rfl, rfl, rfl⟩
  all_goals exact Vector.getElem_replicate _

end Sys2Proof.Machine

/-! The instructions without a check: what each answers, written through the updates of the state, and its word. -/

namespace Sys2Proof

/-! ### Words with fixed digits -/

theorem encodedAs_row_rrn (f : Nat) (n : Nibble) {i : Instr} {x y : Reg} (hf : f < 16) (h : i.wellFormed = true)
    (he : encode i = shapeRRN f x y n) : EncodedAs i (f * 4096 + n.toNat + x.val * 256 + y.val * 16) := by
  refine encodedAs_of_wellFormed h ?_
  rw [he, shapeRRN_toNat hf]
  omega

theorem encodedAs_row_ri (f : Nat) (nn : Byte) {i : Instr} {x : Reg} (hf : f < 16) (h : i.wellFormed = true)
    (he : encode i = shapeRI f x nn) : EncodedAs i (f * 4096 + nn.toNat + x.val * 256) := by
  refine encodedAs_of_wellFormed h ?_
  rw [he, shapeRI_toNat hf]
  omega

end Sys2Proof

namespace Sys2Proof.Machine

/-! ### Control flow (41_control_flow.md) -/

theorem address_toNat (nnn : Addr) : (address nnn).toNat = nnn.toNat :=
  BitVec.toNat_setWidth_of_le (by decide)

theorem zext_toNat (b : Byte) : (zext b).toNat = b.toNat :=
  BitVec.toNat_setWidth_of_le (by decide)

theorem address_add_zext_toNat (nnn : Addr) (b : Byte) : (address nnn + zext b).toNat = nnn.toNat + b.toNat := by
  have := nnn.isLt
  have := b.isLt
  rw [BitVec.toNat_add, address_toNat, zext_toNat]
  omega

section
variable (s : State)

theorem skipIf_eq (c : Bool) : skipIf c s = .next (s.setPc (if c then s.pc + 2 else s.pc)) := by
  cases c <;> rfl

theorem skipIf_not_eq (c : Bool) : skipIf (!c) s = .next (s.setPc (if c then s.pc else s.pc + 2)) := by
  cases c <;> rfl

theorem exec_sys (nnn : Addr) : exec (.sys nnn) s = .next s := rfl

theorem exec_jp (nnn : Addr) : exec (.jp nnn) s = .next (s.setPc (address nnn)) := rfl

theorem exec_jpV0 (nnn : Addr) : exec (.jpV0 nnn) s = .next (s.setPc (address nnn + zext s.v[(0 : Reg)])) := rfl

theorem exec_seImm (x : Reg) (nn : Byte) :
    exec (.seImm x nn) s = .next (s.setPc (if s.v[x] = nn then s.pc + 2 else s.pc)) := by
  refine (skipIf_eq s _).trans ?_
  simp only [beq_iff_eq, State.reg_eq]

theorem exec_sneImm (x : Reg) (nn : Byte) :
    exec (.sneImm x nn) s = .next (s.setPc (if s.v[x] = nn then s.pc else s.pc + 2)) := by
  refine (skipIf_eq s _).trans ?_
  simp only [bne_iff_ne, ite_not, State.reg_eq]

theorem exec_seReg (x y : Reg) (n : Nibble) :
    exec (.seReg x y n) s = .next (s.setPc (if s.v[x] = s.v[y] then s.pc + 2 else s.pc)) :=
  exec_seImm s x s.v[y]

theorem exec_sneReg (x y : Reg) (n : Nibble) :
    exec (.sneReg x y n) s = .next (s.setPc (if s.v[x] = s.v[y] then s.pc else s.pc + 2)) :=
  exec_sneImm s x s.v[y]

end

/-- Settles O33: the halt when nothing is pushed, else what `State.pop_some` says. -/
theorem retPopsTheProgramCounter : Obligations.RetPopsTheProgramCounter := by
  refine ⟨encodedAs_of_wellFormed rfl rfl, fun s => ⟨fun h => exec_ret_of_pop_none (State.pop_none.2 h), fun hpos => ?_⟩⟩
  cases hp : s.pop with
  | none =>
    have hempty : s.sp.val = 0 := State.pop_none.1 hp
    omega
  | some p =>
    obtain ⟨target, t⟩ := p
    obtain ⟨-, hsp, -, k, hk, htarget⟩ := State.pop_some hp
    refine ⟨_, exec_ret_of_pop_some hp, hsp, fun j hj => ?_, State.pop_setPc_frame hp⟩
    obtain rfl : j = k := Fin.ext (hj.trans hk.symm)
    exact htarget

/-- Settles O34: the word is its own operand, and the meaning answers the state it is given. -/
theorem sysChangesNothing : Obligations.SysChangesNothing := by
  refine ⟨fun nnn hcls hret => encodedAs_of_wellFormed (sys_wellFormed_iff.2 ⟨hcls, hret⟩) ?_, exec_sys⟩
  calc (encode (.sys nnn)).toNat = 0x0 * 4096 + nnn.toNat := shapeA_toNat (by decide) nnn
    _ = nnn.toNat := by omega

/-- Settles O35: the target is stored unchecked, and it is the next STEP that looks at it. -/
theorem jpSetsTheProgramCounter : Obligations.JpSetsTheProgramCounter := by
  refine ⟨fun nnn => encodedAs_of_wellFormed rfl (shapeA_toNat (by decide) nnn), fun s nnn => ?_⟩
  refine ⟨_, exec_jp s nnn, address_toNat nnn, s.setPc_frame _, fun hr hout => ?_, fun hr hw hd hself => ?_⟩
  · refine step_of_outside hr fun hw => ?_
    obtain ⟨hlo, hhi⟩ := hw
    rw [State.setPc_pc, address_toNat] at hlo hhi
    omega
  · have hpc : address nnn = s.pc := BitVec.eq_of_toNat_eq ((address_toNat nnn).trans hself.symm)
    rw [step_of_decode hr hw hd, exec_jp, hpc]
    rfl

/-- Settles O36: the halt when sixteen entries are pushed, else what `State.push_some` says. -/
theorem callPushesAndJumps : Obligations.CallPushesAndJumps := by
  refine ⟨fun nnn => encodedAs_of_wellFormed rfl (shapeA_toNat (by decide) nnn), fun s nnn =>
    ⟨fun h => exec_call_of_push_none nnn (State.push_none.2 h), fun hroom => ?_⟩⟩
  cases hp : s.push with
  | none =>
    have hfull : s.sp.val = 16 := State.push_none.1 hp
    omega
  | some t =>
    obtain ⟨-, hsp, -, hslot⟩ := State.push_some hp
    exact ⟨_, exec_call_of_push_some nnn hp, hsp, address_toNat nnn, fun k hk => (hslot k).trans (if_pos hk),
      State.push_setPc_frame hp _⟩

/-- Settles O37: the slot a RET reads is the one its `sp` names, which is the one the CALL wrote. -/
theorem retAnswersCall : Obligations.RetAnswersCall := by
  intro s nnn k hk
  cases hp : s.push with
  | none =>
    have hfull : s.sp.val = 16 := State.push_none.1 hp
    omega
  | some t =>
    obtain ⟨-, hsp, -, hslot⟩ := State.push_some hp
    refine ⟨_, exec_call_of_push_some nnn hp, (hslot k).trans (if_pos hk), fun s' hsp' hslot' => ?_⟩
    have hpushed : s'.sp.val = s.sp.val + 1 := (congrArg Fin.val hsp').trans hsp
    cases hp' : s'.pop with
    | none =>
      have hempty : s'.sp.val = 0 := State.pop_none.1 hp'
      omega
    | some p =>
      obtain ⟨target, u⟩ := p
      obtain ⟨-, hu, -, j, hj, htarget⟩ := State.pop_some hp'
      obtain rfl : j = k := Fin.ext (by omega)
      have husp : u.sp = s.sp := Fin.ext (by omega)
      exact ⟨_, exec_ret_of_pop_some hp', htarget.trans hslot', husp⟩

/-- Settles O38, through `exec_seImm` and `exec_sneImm`. -/
theorem skipsOnAnImmediate : Obligations.SkipsOnAnImmediate := fun s x nn =>
  ⟨encodedAs_of_wellFormed rfl (shapeRI_toNat (by decide) x nn),
    encodedAs_of_wellFormed rfl (shapeRI_toNat (by decide) x nn), exec_seImm s x nn, exec_sneImm s x nn⟩

/-- Settles O39, through `exec_seReg` and `exec_sneReg`. -/
theorem skipsOnRegisters : Obligations.SkipsOnRegisters := fun s x y n =>
  ⟨encodedAs_of_wellFormed rfl (shapeRRN_toNat (by decide) x y n),
    encodedAs_of_wellFormed rfl (shapeRRN_toNat (by decide) x y n), exec_seReg s x y n, exec_sneReg s x y n⟩

/-- Settles O40: the sum of a 12-bit and an 8-bit number fits `pc`. -/
theorem jpV0AddsTheRegister : Obligations.JpV0AddsTheRegister :=
  ⟨fun nnn => encodedAs_of_wellFormed rfl (shapeA_toNat (by decide) nnn), fun s nnn =>
    ⟨_, exec_jpV0 s nnn, address_add_zext_toNat nnn _, s.setPc_frame _⟩⟩

/-! ### Arithmetic and logic (42_alu.md) -/

section
variable (s : State)

theorem exec_ldReg (x y : Reg) : exec (.ldReg x y) s = .next (s.setReg x s.v[y]) := rfl

theorem exec_orReg (x y : Reg) : exec (.orReg x y) s = .next (s.setRegFlag x (s.v[x] ||| s.v[y]) false) := rfl

theorem exec_andReg (x y : Reg) : exec (.andReg x y) s = .next (s.setRegFlag x (s.v[x] &&& s.v[y]) false) := rfl

theorem exec_xorReg (x y : Reg) : exec (.xorReg x y) s = .next (s.setRegFlag x (s.v[x] ^^^ s.v[y]) false) := rfl

theorem exec_addReg (x y : Reg) :
    exec (.addReg x y) s = .next (s.setRegFlag x (s.v[x] + s.v[y]) (carryOut s.v[x] s.v[y])) := rfl

theorem exec_subReg (x y : Reg) :
    exec (.subReg x y) s = .next (s.setRegFlag x (s.v[x] - s.v[y]) (noBorrow s.v[x] s.v[y])) := rfl

theorem exec_subnReg (x y : Reg) :
    exec (.subnReg x y) s = .next (s.setRegFlag x (s.v[y] - s.v[x]) (noBorrow s.v[y] s.v[x])) := rfl

theorem exec_shrReg (x y : Reg) :
    exec (.shrReg x y) s = .next (s.setRegFlag x (s.v[y] >>> 1) (shiftedOutRight s.v[y])) := rfl

theorem exec_shlReg (x y : Reg) :
    exec (.shlReg x y) s = .next (s.setRegFlag x (s.v[y] <<< 1) (shiftedOutLeft s.v[y])) := rfl

theorem exec_rnd (x : Reg) (nn : Byte) :
    exec (.rnd x nn) s = .next ((s.setReg x (Config.draw s.draws &&& nn)).setDraws (s.draws + 1)) := rfl

/-- The flag is written last, so it is there whatever the destination (R12). -/
theorem State.setRegFlag_get_flag (x : Reg) (b : Byte) (f : Bool) :
    (s.setRegFlag x b f).v[(15 : Reg)] = flagByte f := by
  rw [State.setRegFlag_get, if_pos rfl]

theorem State.setRegFlag_get_result {x : Reg} (hx : x ≠ 15) (b : Byte) (f : Bool) :
    (s.setRegFlag x b f).v[x] = b := by
  rw [State.setRegFlag_get, if_neg hx, if_pos rfl]

end

theorem flagByte_decide (p : Prop) [Decidable p] : flagByte (decide p) = if p then 1 else 0 := by
  by_cases hp : p <;> simp [hp]

theorem flagByte_toNat (f : Bool) : (flagByte f).toNat = f.toNat := by
  cases f <;> rfl

theorem sub_toNat (a b : Byte) : (a - b).toNat = (256 + a.toNat - b.toNat) % 256 := by
  have := b.isLt
  rw [BitVec.toNat_sub]
  omega

theorem shiftRight_one_toNat (b : Byte) : (b >>> 1).toNat = b.toNat / 2 := by
  rw [BitVec.toNat_ushiftRight, Nat.shiftRight_eq_div_pow]

theorem shiftLeft_one_toNat (b : Byte) : (b <<< 1).toNat = b.toNat * 2 % 256 := by
  rw [BitVec.toNat_shiftLeft, Nat.shiftLeft_eq]

theorem flagByte_shiftedOutRight (b : Byte) : (flagByte (shiftedOutRight b)).toNat = b.toNat % 2 := by
  calc (flagByte (shiftedOutRight b)).toNat = (b.toNat.testBit 0).toNat := flagByte_toNat _
    _ = b.toNat % 2 := by rw [Nat.toNat_testBit, pow_zero, Nat.div_one]

theorem flagByte_shiftedOutLeft (b : Byte) : (flagByte (shiftedOutLeft b)).toNat = b.toNat / 128 := by
  have := b.isLt
  calc (flagByte (shiftedOutLeft b)).toNat = (b.toNat.testBit 7).toNat := flagByte_toNat _
    _ = b.toNat / 128 := by rw [Nat.toNat_testBit]; omega

/-- Settles O43: the one register written is V[x]. -/
theorem ldRegCopies : Obligations.LdRegCopies := fun s x y =>
  ⟨encodedAs_row_rrn 0x8 0x0 (by decide) rfl rfl, _, exec_ldReg s x y, s.setReg_get_same x _, s.setReg_frame x _⟩

/-- Settles O44: the result bit by bit, the flag 0 written after it. -/
theorem logicOpsClearTheFlag : Obligations.LogicOpsClearTheFlag := by
  refine fun s x y => ⟨encodedAs_row_rrn 0x8 0x1 (by decide) rfl rfl, encodedAs_row_rrn 0x8 0x2 (by decide) rfl rfl,
    encodedAs_row_rrn 0x8 0x3 (by decide) rfl rfl,
    ⟨_, exec_orReg s x y, s.setRegFlag_get_flag x _ _, fun hx j => ?_, s.setRegFlag_frame x _ _⟩,
    ⟨_, exec_andReg s x y, s.setRegFlag_get_flag x _ _, fun hx j => ?_, s.setRegFlag_frame x _ _⟩,
    ⟨_, exec_xorReg s x y, s.setRegFlag_get_flag x _ _, fun hx j => ?_, s.setRegFlag_frame x _ _⟩⟩
  · rw [s.setRegFlag_get_result hx, BitVec.getLsbD_or]
  · rw [s.setRegFlag_get_result hx, BitVec.getLsbD_and]
  · rw [s.setRegFlag_get_result hx, BitVec.getLsbD_xor]

/-- Settles O45: the sum modulo 256, then the carry of the old values. -/
theorem addRegReportsCarry : Obligations.AddRegReportsCarry := by
  refine fun s x y => ⟨encodedAs_row_rrn 0x8 0x4 (by decide) rfl rfl, _, exec_addReg s x y, fun hx => ?_,
    (s.setRegFlag_get_flag x _ _).trans (flagByte_decide _), s.setRegFlag_frame x _ _⟩
  rw [s.setRegFlag_get_result hx, BitVec.toNat_add]

/-- Settles O46: the difference modulo 256, then the not-borrow of the old values. -/
theorem subtractionsReportNoBorrow : Obligations.SubtractionsReportNoBorrow := by
  refine fun s x y => ⟨encodedAs_row_rrn 0x8 0x5 (by decide) rfl rfl, encodedAs_row_rrn 0x8 0x7 (by decide) rfl rfl,
    ⟨_, exec_subReg s x y, fun hx => ?_, (s.setRegFlag_get_flag x _ _).trans (flagByte_decide _),
      s.setRegFlag_frame x _ _⟩,
    ⟨_, exec_subnReg s x y, fun hx => ?_, (s.setRegFlag_get_flag x _ _).trans (flagByte_decide _),
      s.setRegFlag_frame x _ _⟩⟩
  all_goals rw [s.setRegFlag_get_result hx, sub_toNat]

/-- Settles O47: the shifted value, then the bit shifted out. -/
theorem shiftsTakeTheSecondRegister : Obligations.ShiftsTakeTheSecondRegister := by
  refine fun s x y => ⟨encodedAs_row_rrn 0x8 0x6 (by decide) rfl rfl, encodedAs_row_rrn 0x8 0xE (by decide) rfl rfl,
    ⟨_, exec_shrReg s x y, fun hx => ?_, ?_, s.setRegFlag_frame x _ _⟩,
    ⟨_, exec_shlReg s x y, fun hx => ?_, ?_, s.setRegFlag_frame x _ _⟩⟩
  · rw [s.setRegFlag_get_result hx, shiftRight_one_toNat]
  · rw [State.setRegFlag_get_flag, flagByte_shiftedOutRight]
  · rw [s.setRegFlag_get_result hx, shiftLeft_one_toNat]
  · rw [State.setRegFlag_get_flag, flagByte_shiftedOutLeft]

/-- Settles O48: the masked draw is written, then the counter. -/
theorem rndMasksTheDraw : Obligations.RndMasksTheDraw := by
  refine fun s x nn => ⟨encodedAs_of_wellFormed rfl (shapeRI_toNat (by decide) x nn), _, exec_rnd s x nn,
    s.setReg_get_same x _, ?_, rfl,
    frame_trans (frame_mono (s.setReg_frame x _) fun _ => .inl) (frame_mono (State.setDraws_frame _ _) fun _ => .inr)⟩
  rw [State.setDraws_v, State.setReg_get_same, BitVec.and_assoc, BitVec.and_not_self]
  exact BitVec.and_zero

/-! ### Index and timers (45_memory_timer_bcd.md) -/

section
variable (s : State)

theorem exec_ldI (nnn : Addr) : exec (.ldI nnn) s = .next (s.setI (address nnn)) := rfl

theorem exec_addI (x : Reg) : exec (.addI x) s = .next (s.setI (s.i + zext s.v[x])) := rfl

theorem exec_ldVxDt (x : Reg) : exec (.ldVxDt x) s = .next (s.setReg x s.dt) := rfl

theorem exec_ldDtVx (x : Reg) : exec (.ldDtVx x) s = .next (s.setDt s.v[x]) := rfl

theorem exec_ldStVx (x : Reg) : exec (.ldStVx x) s = .next (s.setSt s.v[x]) := rfl

end

/-- Settles O54: the operand zero-extended. -/
theorem ldILoadsTheAddress : Obligations.LdILoadsTheAddress :=
  ⟨fun nnn => encodedAs_of_wellFormed rfl (shapeA_toNat (by decide) nnn), fun s nnn =>
    ⟨_, exec_ldI s nnn, address_toNat nnn, s.setI_frame _⟩⟩

/-- Settles O55: one register or one timer is written. -/
theorem timerRegistersMove : Obligations.TimerRegistersMove := fun s x =>
  ⟨encodedAs_row_ri 0xF 0x07 (by decide) rfl rfl, encodedAs_row_ri 0xF 0x15 (by decide) rfl rfl,
    encodedAs_row_ri 0xF 0x18 (by decide) rfl rfl,
    ⟨_, exec_ldVxDt s x, s.setReg_get_same x _, s.setReg_frame x _⟩,
    ⟨_, exec_ldDtVx s x, rfl, s.setDt_frame _⟩, ⟨_, exec_ldStVx s x, rfl, s.setSt_frame _⟩⟩

/-- Settles O56: addition of words is addition modulo 65536. -/
theorem addIWrapsAtSixteenBits : Obligations.AddIWrapsAtSixteenBits := by
  refine fun s x => ⟨encodedAs_row_ri 0xF 0x1E (by decide) rfl rfl, _, exec_addI s x, ?_, s.setI_frame _⟩
  rw [State.setI_i, BitVec.toNat_add, zext_toNat]

end Sys2Proof.Machine

/-! The instructions with a check (20_memory.md R70 to R72, 44_input.md R210, 45_memory_timer_bcd.md): what each answers when
the check finds a fault, and when it finds none. -/

namespace Sys2Proof.Machine

/-! ### The key skips -/

section
variable {s : State} {x : Reg}

theorem checkKey_of_gt (h : 15 < s.v[x].toNat) : s.checkKey x = some .keyRange := if_pos h

theorem checkKey_of_le (h : s.v[x].toNat ≤ 15) : s.checkKey x = none := if_neg (Nat.not_lt.2 h)

theorem exec_skp (s : State) (x : Reg) :
    exec (.skp x) s = unlessFault (s.checkKey x) s
      (.next (s.setPc (if s.keys.getLsbD s.v[x].toNat then s.pc + 2 else s.pc))) :=
  congrArg (unlessFault (s.checkKey x) s) (skipIf_eq s _)

theorem exec_sknp (s : State) (x : Reg) :
    exec (.sknp x) s = unlessFault (s.checkKey x) s
      (.next (s.setPc (if s.keys.getLsbD s.v[x].toNat then s.pc else s.pc + 2))) :=
  congrArg (unlessFault (s.checkKey x) s) (skipIf_not_eq s _)

end

/-- Settles O52: the check of the key number, then the skip. -/
theorem skipsOnAKey : Obligations.SkipsOnAKey := by
  refine fun s x => ⟨encodedAs_row_ri 0xE 0x9E (by decide) rfl rfl, encodedAs_row_ri 0xE 0xA1 (by decide) rfl rfl,
    fun h => ?_, fun h => ?_⟩
  · rw [exec_skp, exec_sknp, checkKey_of_gt h]
    exact ⟨rfl, rfl⟩
  · rw [exec_skp, exec_sknp, checkKey_of_le h]
    exact ⟨rfl, rfl⟩

/-! ### Ranges of memory -/

section
variable {s : State} {count : Nat}

theorem checkRange_of_above (hc : 1 ≤ count) (h : 0x1000 < s.i.toNat + count) : s.checkRange count = some .memRange := by
  rw [State.checkRange_eq, if_pos ⟨hc, h⟩]

theorem checkRange_of_fits (h : s.i.toNat + count ≤ 0x1000) : s.checkRange count = none := by
  rw [State.checkRange_eq, if_neg (by omega)]

theorem checkStore_of_above (hc : 1 ≤ count) (h : 0x1000 < s.i.toNat + count) : s.checkStore count = some .memRange := by
  rw [State.checkStore_eq s hc, if_pos h]

theorem checkStore_of_protected (hc : 1 ≤ count) (h : s.i.toNat + count ≤ 0x1000) (hi : s.i.toNat < 0x200) :
    s.checkStore count = some .writeProtect := by
  rw [State.checkStore_eq s hc, if_neg (by omega), if_pos hi]

theorem checkStore_of_fits (hc : 1 ≤ count) (h : s.i.toNat + count ≤ 0x1000) (hi : 0x200 ≤ s.i.toNat) :
    s.checkStore count = none := by
  rw [State.checkStore_eq s hc, if_neg (by omega), if_neg (by omega)]

/-- Every store the check lets through lies above the protected bytes and inside memory. -/
theorem range_of_checkStore_none (hc : 1 ≤ count) (h : s.checkStore count = none) :
    0x200 ≤ s.i.toNat ∧ s.i.toNat + count ≤ 0x1000 := by
  rw [State.checkStore_eq s hc] at h
  split at h
  case isTrue => nomatch h
  case isFalse hfits =>
    split at h
    case isTrue => nomatch h
    case isFalse hi => exact ⟨Nat.not_lt.1 hi, Nat.not_lt.1 hfits⟩

theorem State.store_read (s : State) {a k : Nat} {bs : List Byte} (hk : k < bs.length) :
    (s.store a bs).read (a + k) = bs[k] := by
  rw [State.read_eq, State.store_mem, Memory.read_writeBytes, dif_pos (by omega)]
  simp only [Nat.add_sub_cancel_left]

theorem advancedI_toNat (s : State) {x : Reg} (h : s.i.toNat + x.val ≤ 0xFFF) :
    (s.advancedI x).toNat = s.i.toNat + x.val + 1 := by
  rw [State.advancedI, State.effAddr_eq, BitVec.toNat_ofNat]
  omega

end

/-! ### FX33, FX55 and FX65 -/

section
variable (s : State) (x : Reg)

theorem exec_ldB :
    exec (.ldB x) s = unlessFault (s.checkStore 3) s (.next (s.store (s.effAddr 0) (bcdDigits s.v[x]))) := rfl

theorem exec_storeRegs :
    exec (.storeRegs x) s = unlessFault (s.checkStore (x.val + 1)) s
      (.next ((s.store (s.effAddr 0) (s.regsUpTo x)).setI (s.advancedI x))) := rfl

theorem exec_loadRegs :
    exec (.loadRegs x) s = unlessFault (s.checkRange (x.val + 1)) s
      (.next ((s.setRegs (s.loadedRegs x)).setI (s.advancedI x))) := rfl

end

section
variable {s : State} {x : Reg}

theorem exec_ldB_of_fits (hi : 0x200 ≤ s.i.toNat) (h : s.i.toNat + 2 ≤ 0xFFF) :
    exec (.ldB x) s = .next (s.store (s.effAddr 0) (bcdDigits s.v[x])) := by
  rw [exec_ldB, checkStore_of_fits (by omega) (by omega) hi, unlessFault_none]

theorem exec_storeRegs_of_fits (hi : 0x200 ≤ s.i.toNat) (h : s.i.toNat + x.val ≤ 0xFFF) :
    exec (.storeRegs x) s = .next ((s.store (s.effAddr 0) (s.regsUpTo x)).setI (s.advancedI x)) := by
  rw [exec_storeRegs, checkStore_of_fits (by omega) (by omega) hi, unlessFault_none]

theorem exec_loadRegs_of_fits (h : s.i.toNat + x.val ≤ 0xFFF) :
    exec (.loadRegs x) s = .next ((s.setRegs (s.loadedRegs x)).setI (s.advancedI x)) := by
  rw [exec_loadRegs, checkRange_of_fits (by omega), unlessFault_none]

/-- Digit `k` of a byte, the hundreds first (R226). -/
theorem bcdDigits_get_toNat (b : Byte) {k : Nat} (hk : k < 3) :
    ((bcdDigits b)[k]'hk).toNat = b.toNat / 10 ^ (2 - k) % 10 := by
  have := b.isLt
  match k with
  | 0 | 1 | 2 =>
    simp only [bcdDigits, List.getElem_cons_zero, List.getElem_cons_succ, BitVec.toNat_ofNat]
    omega

theorem State.bcd_read_toNat (s : State) (x : Reg) {k : Nat} (hk : k < 3) :
    ((s.store (s.effAddr 0) (bcdDigits s.v[x])).read (s.effAddr k)).toNat = s.v[x].toNat / 10 ^ (2 - k) % 10 :=
  (congrArg BitVec.toNat (s.store_read hk)).trans (bcdDigits_get_toNat s.v[x] hk)

theorem State.regs_read (s : State) {x k : Reg} (hk : k ≤ x) :
    ((s.store (s.effAddr 0) (s.regsUpTo x)).setI (s.advancedI x)).read (s.effAddr k.val) = s.v[k] := by
  have hlen : k.val < (s.regsUpTo x).length := by rw [State.regsUpTo_length]; exact Nat.lt_succ_of_le hk
  exact (s.store_read hlen).trans (s.regsUpTo_get x k.val hlen)

end

/-- Settles O58: the two faults of the check in their order, else the three digits. -/
theorem ldBStoresDecimalDigits : Obligations.LdBStoresDecimalDigits := by
  refine fun s x => ⟨encodedAs_row_ri 0xF 0x33 (by decide) rfl rfl, fun h => ?_, fun h hi => ?_, fun hi h => ?_⟩
  · rw [exec_ldB, checkStore_of_above (by omega) (by omega)]
    rfl
  · rw [exec_ldB, checkStore_of_protected (by omega) (by omega) hi]
    rfl
  · have hbyte := s.v[x].isLt
    refine ⟨_, exec_ldB_of_fits hi h, ?_, ?_, ?_, s.store_effAddr_frame _⟩
    · rw [s.bcd_read_toNat x (by decide)]
      omega
    · exact s.bcd_read_toNat x (by decide)
    · rw [s.bcd_read_toNat x (by decide)]
      omega

/-- Settles O59: the two faults of the check in their order, else the block of registers. -/
theorem storeRegsStoresTheBlock : Obligations.StoreRegsStoresTheBlock := by
  refine fun s x => ⟨encodedAs_row_ri 0xF 0x55 (by decide) rfl rfl, fun h => ?_, fun h hi => ?_, fun hi h => ?_⟩
  · rw [exec_storeRegs, checkStore_of_above (by omega) (by omega)]
    rfl
  · rw [exec_storeRegs, checkStore_of_protected (by omega) (by omega) hi]
    rfl
  · exact ⟨_, exec_storeRegs_of_fits hi h, fun k hk => s.regs_read hk, advancedI_toNat s h, s.storeRegs_frame x⟩

/-- Settles O60: the fault of the check, else the block of bytes. -/
theorem loadRegsLoadsTheBlock : Obligations.LoadRegsLoadsTheBlock := by
  refine fun s x => ⟨encodedAs_row_ri 0xF 0x65 (by decide) rfl rfl, fun h => ?_, fun h => ?_⟩
  · rw [exec_loadRegs, checkRange_of_above (by omega) (by omega)]
    rfl
  · exact ⟨_, exec_loadRegs_of_fits h, fun k hk => (s.loadedRegs_get x k).trans (if_pos hk), advancedI_toNat s h,
      s.loadRegs_frame x⟩

/-- A byte of memory is the high byte of the word fetched at it and the low byte of the word fetched before it (R62). -/
theorem fetchWord_covers (t : State) (p : Word) {a : Nat} {b : Byte} (h : t.read a = b) :
    (p.toNat = a → (t.setPc p).fetchWord.toNat / 256 = b.toNat) ∧
    (p.toNat + 1 = a → (t.setPc p).fetchWord.toNat % 256 = b.toNat) := by
  rw [State.setPc_fetchWord, joinBytes_toNat]
  have hlo := (t.read (p.toNat + 1)).isLt
  refine ⟨fun hp => ?_, fun hp => ?_⟩
  · rw [hp, h]
    rw [hp] at hlo
    omega
  · rw [hp, h]
    rw [hp, h] at hlo
    omega

/-- Settles O31: what was stored is read, and what is read is fetched. -/
theorem storedBytesAreFetched : Obligations.StoredBytesAreFetched := by
  refine ⟨fun s x hi h => ⟨_, exec_storeRegs_of_fits hi h, fun k p hk => fetchWord_covers _ p (s.regs_read hk)⟩,
    fun s x hi h => ⟨_, exec_ldB_of_fits hi h, fun k p hk => ?_⟩⟩
  rw [← s.bcd_read_toNat x hk]
  exact fetchWord_covers _ p rfl

/-! ### FX29 -/

theorem exec_ldF (s : State) (x : Reg) : exec (.ldF x) s = .next (s.setI (zext (s.read (s.v[x].toNat * 5)))) := rfl

/-- Under the invariant nothing below 0x200 is listed. -/
theorem read_of_runInv {s : State} (h : RunInv s) {a : Nat} (ha : a < 0x200) : s.read a = unlisted a := by
  obtain ⟨-, hlisted, -⟩ := h
  exact Memory.read_of_lt fun c hc => Nat.lt_of_lt_of_le ha (hlisted c hc)

/-- Settles O57: the byte is loaded, and the invariant says which it is: a font byte, or 0 above the font. -/
theorem ldFLoadsTheFontByte : Obligations.LdFLoadsTheFontByte := by
  refine fun s x => ⟨encodedAs_row_ri 0xF 0x29 (by decide) rfl rfl, _, exec_ldF s x, zext_toNat _, s.setI_frame _,
    fun hinv a ha => ?_, fun hinv hlo hhi => ?_⟩
  · have hread : s.read (s.v[x].toNat * 5) = Config.font a := by
      rw [← ha, read_of_runInv hinv (by omega), unlisted_of_font]
    rw [State.setI_i, zext_toNat, hread]
  · have hread : s.read (s.v[x].toNat * 5) = 0 := by
      rw [read_of_runInv hinv (by omega), unlisted_of_ge (by omega)]
    rw [State.setI_i, hread]
    rfl

end Sys2Proof.Machine

/-! The draw (43_graphics.md R193 to R197): the gate, the range check, and the pixels and the flag of a draw that proceeds. -/

namespace Sys2Proof.Machine

/-- The state a proceeding DXYN leaves (R194). -/
def State.afterDraw (s : State) (x y : Reg) (n : Nibble) : State :=
  ((s.setVblank false).setDisplay (s.drawn x y n).bits).setFlag (s.drawn x y n).coll

section
variable {s : State} (x y : Reg) {n : Nibble}

theorem checkRange_of_spriteInMemory (h : SpriteInMemory s n) : s.checkRange n.toNat = none := by
  rcases h with rfl | h
  · rfl
  · exact checkRange_of_fits h

theorem checkRange_of_not_spriteInMemory (h : ¬ SpriteInMemory s n) : s.checkRange n.toNat = some .memRange := by
  obtain ⟨hne, habove⟩ := not_or.1 h
  have hpos : n.toNat ≠ 0 := fun h0 => hne (BitVec.eq_of_toNat_eq h0)
  exact checkRange_of_above (Nat.one_le_iff_ne_zero.2 hpos) (Nat.not_le.1 habove)

theorem exec_drw_of_inMemory (hv : s.vblank = true) (h : SpriteInMemory s n) :
    exec (.drw x y n) s = .next (s.afterDraw x y n) := by
  rw [exec_drw_of_vblank hv, checkRange_of_spriteInMemory h, unlessFault_none]
  rfl

theorem exec_drw_of_above (hv : s.vblank = true) (h : ¬ SpriteInMemory s n) :
    exec (.drw x y n) s = .next (s.setFault .memRange) := by
  rw [exec_drw_of_vblank hv, checkRange_of_not_spriteInMemory h, unlessFault_some]

end

section
variable (s : State) (x y : Reg) (n : Nibble)

theorem State.afterDraw_flag : (s.afterDraw x y n).v[(15 : Reg)] = flagByte (s.drawn x y n).coll :=
  State.setReg_get_same _ 15 _

theorem State.afterDraw_flag_of_erases (h : erases s x y n) : (s.afterDraw x y n).v[(15 : Reg)] = 1 := by
  rw [State.afterDraw_flag, (s.drawn_coll x y n).2 h, flagByte_true]

theorem State.afterDraw_flag_of_not_erases (h : ¬ erases s x y n) : (s.afterDraw x y n).v[(15 : Reg)] = 0 := by
  have hcoll : (s.drawn x y n).coll = false := Bool.eq_false_iff.2 fun hc => h ((s.drawn_coll x y n).1 hc)
  rw [State.afterDraw_flag, hcoll, flagByte_false]

theorem State.afterDraw_flag_iff : (s.afterDraw x y n).v[(15 : Reg)] = 1 ↔ erases s x y n := by
  refine ⟨fun h => ?_, s.afterDraw_flag_of_erases x y n⟩
  by_contra hn
  rw [s.afterDraw_flag_of_not_erases x y n hn] at h
  exact absurd h (by decide)

theorem State.afterDraw_pixel (px : Fin 64) (py : Fin 32) :
    pixel (s.afterDraw x y n).display px py = (pixel s.display px py ^^ spriteBit s x y n px py) :=
  s.drawn_pixel x y n px py

end

/-- Settles O50: what a sprite in memory draws, and the fault of one that is not. -/
theorem drawFlipsTheSpritesPixels : Obligations.DrawFlipsTheSpritesPixels := fun s x y n =>
  ⟨encodedAs_of_wellFormed rfl (shapeRRN_toNat (by decide) x y n),
    fun hv h => ⟨_, exec_drw_of_inMemory x y hv h, s.afterDraw_pixel x y n, s.afterDraw_flag_of_erases x y n,
      s.afterDraw_flag_of_not_erases x y n, rfl, s.drawn_frame _ _⟩,
    fun hv h => exec_drw_of_above x y hv h⟩

/-- A sprite depends on memory, on `I` and on its two coordinate registers. -/
theorem spriteBit_congr {s s' : State} {x y : Reg} (hm : s'.mem = s.mem) (hi : s'.i = s.i) (hx : s'.v[x] = s.v[x])
    (hy : s'.v[y] = s.v[y]) : spriteBit s' x y = spriteBit s x y := by
  funext n px py
  simp only [spriteBit, State.read_eq, hm, hi, hx, hy]

theorem spriteInMemory_congr {s s' : State} {n : Nibble} (hi : s'.i = s.i) (h : SpriteInMemory s n) :
    SpriteInMemory s' n := by
  rw [SpriteInMemory, hi]
  exact h

/-- Settles O51: every pixel under a 1 bit is flipped twice, and is lit for the second draw exactly if it was dark before
the first. -/
theorem drawingTwiceRestoresTheDisplay : Obligations.DrawingTwiceRestoresTheDisplay := by
  intro s x y n hv hin
  refine ⟨_, exec_drw_of_inMemory x y hv hin, fun s' hd hm hi hx hy => ?_⟩
  have hsprite : spriteBit (tick s') x y n = spriteBit s x y n := congrFun (spriteBit_congr hm hi hx hy) n
  have hfirst : ∀ px py, pixel (tick s').display px py = (pixel s.display px py ^^ spriteBit s x y n px py) := by
    intro px py
    rw [← s.afterDraw_pixel, ← hd]
    rfl
  refine ⟨_, exec_drw_of_inMemory x y rfl (spriteInMemory_congr hi hin), display_ext fun px py => ?_, ?_⟩
  · rw [State.afterDraw_pixel, hfirst, hsprite, Bool.xor_assoc, Bool.xor_self, Bool.xor_false]
  · rw [State.afterDraw_flag_iff, erases, hsprite]
    refine exists_congr fun px => exists_congr fun py => and_congr_right fun hbit => ?_
    rw [hfirst, hbit, Bool.xor_true, Bool.not_eq_true']

end Sys2Proof.Machine

/-! The host's events (60_exceptions.md R270, 44_input.md R214 and R215, 70_reset_and_hazards.md R303). -/

namespace Sys2Proof.Machine

/-! ### TICK -/

theorem countDown_toNat (b : Byte) : (countDown b).toNat = b.toNat - 1 := by
  have := b.isLt
  unfold countDown
  split
  case isTrue h => rw [h]; rfl
  case isFalse h =>
    have hpos : b.toNat ≠ 0 := fun h0 => h (BitVec.eq_of_toNat_eq h0)
    have hone : (1 : Byte).toNat = 1 := rfl
    rw [BitVec.toNat_sub, hone]
    omega

theorem tick_frame (s : State) : Frame s (tick s) (fun e => e = .dt ∨ e = .st ∨ e = .vblank) :=
  frame_trans (frame_trans (frame_mono (s.setDt_frame _) fun _ => .inl)
    (frame_mono (State.setSt_frame _ _) fun _ he => .inr (.inl he)))
    (frame_mono (State.setVblank_frame _ _) fun _ he => .inr (.inr he))

/-- Settles O27, through `countDown_toNat`. -/
theorem tickCountsDownAndSetsVblank : Obligations.TickCountsDownAndSetsVblank := fun s =>
  ⟨rfl, countDown_toNat s.dt, countDown_toNat s.st, rfl, tick_frame s⟩

theorem tick_iterate_dt_toNat (s : State) (n : Nat) : (tick^[n] s).dt.toNat = s.dt.toNat - n := by
  induction n with
  | zero => rfl
  | succ n ih =>
    calc (tick^[n + 1] s).dt.toNat = (tick (tick^[n] s)).dt.toNat := by rw [Function.iterate_succ_apply']
      _ = (tick^[n] s).dt.toNat - 1 := countDown_toNat _
      _ = s.dt.toNat - (n + 1) := by rw [ih]; omega

/-- Settles O28, by induction on the number of TICKs. -/
theorem delayTimerReadsElapsedTicks : Obligations.DelayTimerReadsElapsedTicks := by
  refine fun s x y n => ⟨_, _, exec_ldDtVx s x, exec_ldVxDt _ y, ?_⟩
  rw [State.setReg_get_same, tick_iterate_dt_toNat, State.setDt_dt]

/-! ### Keys -/

theorem keyBit_getLsbD (k j : Nat) : (keyBit k).getLsbD j = decide (j = k % 16) := by
  rw [keyBit, ← BitVec.twoPow_eq, BitVec.getLsbD_twoPow, decide_eq_true (Nat.mod_lt k (by decide)), Bool.true_and]
  simp only [eq_comm]

/-- Settles O29: the mask has the one bit that the low four bits of the argument name. -/
theorem keyEventsMoveOneBit : Obligations.KeyEventsMoveOneBit := by
  refine fun s k => ⟨⟨_, rfl, fun j _ => ?_, s.setKeys_frame _⟩, ⟨_, rfl, fun j hj => ?_, s.setKeys_frame _⟩⟩
  · rw [keyDown, State.setKeys_keys, BitVec.getLsbD_or, keyBit_getLsbD, Bool.or_comm]
  · rw [keyUp, State.setKeys_keys, BitVec.getLsbD_and, BitVec.getLsbD_not, keyBit_getLsbD, decide_eq_true hj,
      Bool.true_and, Bool.and_comm]

/-! ### LOAD -/

theorem load_of_too_large {bytes : List Byte} (h : 3584 < bytes.length) (s : State) :
    load bytes s = (.romTooLarge, s) := if_pos h

section
variable {bytes : List Byte} (hfit : bytes.length ≤ 3584) (s : State)
include hfit

theorem load_read_outside {a : Nat} (ha : a < 0x200 ∨ 0x200 + bytes.length ≤ a) :
    (load bytes s).2.read a = State.reset.read a := by
  rw [load_of_fits hfit]
  exact (Memory.read_writeBytes _ _ _ _).trans (dif_neg (by omega))

theorem load_setMem_nil : { (load bytes s).2 with mem := [] } = { State.reset with draws := s.draws } := by
  rw [load_of_fits hfit]
  rfl

end

/-- Settles O25: the refusal by the length, else the bytes of the store over the reset state. -/
theorem loadPlacesTheProgram : Obligations.LoadPlacesTheProgram := fun _ s =>
  ⟨fun h => load_of_too_large h s, fun hfit =>
    ⟨congrArg Prod.fst (load_of_fits hfit s), load_setMem_nil hfit s, fun _ hk => load_read hfit s hk,
      fun _ ha => load_read_outside hfit s ha⟩⟩

end Sys2Proof.Machine

/-! The latches (60_exceptions.md R251, R257): an instruction records at most one, and then changes nothing else; so halts
and faults are precise, and only RESET, CONSTRUCT and LOAD clear them. -/

namespace Sys2Proof.Machine

/-! ### What an instruction does to the latches -/

/-- A data fault or a stack halt is recorded and nothing else changes, or both latches stay as they were. PC_RANGE and the
halt on an unknown word are STEP's own. -/
def RecordsOneLatch (s t : State) : Prop :=
  (∃ c, c ≠ .none ∧ c ≠ .pcRange ∧ t = s.setFault c) ∨
  (∃ c, c ≠ .none ∧ c ≠ .unknownInstruction ∧ t = s.setHalt c) ∨
  (t.haltCode = s.haltCode ∧ t.fault = s.fault)

section
variable {s t : State} {i : Instr}

/-- The fault a check of an instruction finds is a data fault. -/
theorem checkRange_some {count : Nat} {c : FaultCode} (h : s.checkRange count = some c) : c ≠ .none ∧ c ≠ .pcRange := by
  rw [State.checkRange_eq] at h
  split at h <;> cases h
  decide

theorem checkStore_some {count : Nat} (hc : 1 ≤ count) {c : FaultCode} (h : s.checkStore count = some c) :
    c ≠ .none ∧ c ≠ .pcRange := by
  rw [State.checkStore_eq s hc] at h
  split at h
  · cases h
    decide
  · split at h <;> cases h
    decide

theorem checkKey_some {x : Reg} {c : FaultCode} (h : s.checkKey x = some c) : c ≠ .none ∧ c ≠ .pcRange := by
  rw [State.checkKey_eq] at h
  split at h <;> cases h
  decide

theorem recordsOneLatch_of_unlessFault {check : Option FaultCode} {u : State}
    (h : unlessFault check s (.next u) = .next t) (hc : ∀ c, check = some c → c ≠ .none ∧ c ≠ .pcRange)
    (hu : u.haltCode = s.haltCode ∧ u.fault = s.fault) : RecordsOneLatch s t := by
  rcases unlessFault_cases h with ⟨c, hsome, rfl⟩ | ⟨-, hnext⟩
  · obtain ⟨hnone, hpc⟩ := hc c hsome
    exact .inl ⟨c, hnone, hpc, rfl⟩
  · obtain rfl := Host.Outcome.next.inj hnext
    exact .inr (.inr hu)

theorem exec_ret_recordsOneLatch (h : exec .ret s = .next t) : RecordsOneLatch s t := by
  cases hp : s.pop with
  | none =>
    obtain rfl := next_eq (exec_ret_of_pop_none hp) h
    exact .inr (.inl ⟨.stackUnderflow, by decide, by decide, rfl⟩)
  | some p =>
    obtain ⟨target, u⟩ := p
    obtain rfl := next_eq (exec_ret_of_pop_some hp) h
    exact .inr (.inr ⟨State.pop_frame hp .haltCode nofun, State.pop_frame hp .fault nofun⟩)

theorem exec_call_recordsOneLatch {nnn : Addr} (h : exec (.call nnn) s = .next t) : RecordsOneLatch s t := by
  cases hp : s.push with
  | none =>
    obtain rfl := next_eq (exec_call_of_push_none nnn hp) h
    exact .inr (.inl ⟨.stackOverflow, by decide, by decide, rfl⟩)
  | some u =>
    obtain rfl := next_eq (exec_call_of_push_some nnn hp) h
    exact .inr (.inr ⟨State.push_frame hp .haltCode (by simp), State.push_frame hp .fault (by simp)⟩)

theorem exec_drw_recordsOneLatch {x y : Reg} {n : Nibble} (h : exec (.drw x y n) s = .next t) :
    RecordsOneLatch s t := by
  cases hv : s.vblank with
  | false =>
    obtain rfl := next_eq (exec_drw_of_no_vblank hv x y n) h
    exact .inr (.inr ⟨rfl, rfl⟩)
  | true =>
    rw [exec_drw_of_vblank hv] at h
    exact recordsOneLatch_of_unlessFault h (fun _ => checkRange_some) ⟨rfl, rfl⟩

/-- The two stack instructions may halt, the checked ones may fault; by its frame no other touches a latch. -/
theorem exec_recordsOneLatch (h : exec i s = .next t) : RecordsOneLatch s t := by
  cases i with
  | ret => exact exec_ret_recordsOneLatch h
  | call => exact exec_call_recordsOneLatch h
  | drw => exact exec_drw_recordsOneLatch h
  | skp x =>
    rw [exec_skp] at h
    exact recordsOneLatch_of_unlessFault h (fun _ => checkKey_some) ⟨rfl, rfl⟩
  | sknp x =>
    rw [exec_sknp] at h
    exact recordsOneLatch_of_unlessFault h (fun _ => checkKey_some) ⟨rfl, rfl⟩
  | ldB x =>
    rw [exec_ldB] at h
    exact recordsOneLatch_of_unlessFault h (fun _ => checkStore_some (by omega)) ⟨rfl, rfl⟩
  | storeRegs x =>
    rw [exec_storeRegs] at h
    exact recordsOneLatch_of_unlessFault h (fun _ => checkStore_some (by omega)) ⟨rfl, rfl⟩
  | loadRegs x =>
    rw [exec_loadRegs] at h
    exact recordsOneLatch_of_unlessFault h (fun _ => checkRange_some) (by simp)
  | _ => exact .inr (.inr ⟨exec_frame h .haltCode (by simp [mayWrite]), exec_frame h .fault (by simp [mayWrite])⟩)

theorem exec_fault_precise (h : exec i s = .next t) (hne : t.fault ≠ s.fault) :
    t = s.setFault t.fault ∧ t.fault ≠ .none ∧ t.fault ≠ .pcRange := by
  rcases exec_recordsOneLatch h with ⟨c, hnone, hpc, rfl⟩ | ⟨c, -, -, rfl⟩ | ⟨-, hsame⟩
  · exact ⟨rfl, hnone, hpc⟩
  · exact absurd rfl hne
  · exact absurd hsame hne

theorem exec_halt_precise (h : exec i s = .next t) (hne : t.haltCode ≠ s.haltCode) :
    t = s.setHalt t.haltCode ∧ t.haltCode ≠ .none ∧ t.haltCode ≠ .unknownInstruction := by
  rcases exec_recordsOneLatch h with ⟨c, -, -, rfl⟩ | ⟨c, hnone, hunk, rfl⟩ | ⟨hsame, -⟩
  · exact absurd rfl hne
  · exact ⟨rfl, hnone, hunk⟩
  · exact absurd hsame hne

theorem exec_keeps_stopped (h : exec i s = .next t) (hs : ¬ Running s) : ¬ Running t := by
  rintro ⟨hhalt, hfault⟩
  rcases exec_recordsOneLatch h with ⟨c, hnone, -, rfl⟩ | ⟨c, hnone, -, rfl⟩ | ⟨hhalt', hfault'⟩
  · exact hnone hfault
  · exact hnone hhalt
  · exact hs ⟨hhalt'.symm.trans hhalt, hfault'.symm.trans hfault⟩

/-! ### What STEP does to the latches -/

theorem step_fault_precise (h : step s = .next t) (hne : t.fault ≠ s.fault) :
    (t.fault = .pcRange ∧ t = s.setFault .pcRange) ∨
    (t.fault ≠ .none ∧ t.fault ≠ .pcRange ∧ t = s.fetched.setFault t.fault) := by
  rcases step_cases s with ⟨-, hs⟩ | ⟨-, -, hs⟩ | ⟨-, -, i, -, hs⟩ | ⟨-, -, -, hs⟩
  · obtain rfl := next_eq hs h
    exact absurd rfl hne
  · obtain rfl := next_eq hs h
    exact .inl ⟨rfl, rfl⟩
  · obtain ⟨ht, hnone, hpc⟩ := exec_fault_precise (hs.symm.trans h) hne
    exact .inr ⟨hnone, hpc, ht⟩
  · obtain rfl := next_eq hs h
    exact absurd rfl hne

/-- Settles O19: PC_RANGE is STEP's, every other fault an instruction's. -/
theorem faultsArePrecise : Obligations.FaultsArePrecise := by
  refine ⟨fun i s t h hne => (exec_fault_precise h hne).1, fun s t h hne => ?_⟩
  rcases step_fault_precise h hne with ⟨hpc, ht⟩ | ⟨hnone, hpc, ht⟩
  · refine ⟨fun _ => ht, fun hn => absurd hpc hn, step_of_not_running (not_running_iff.2 (.inr ?_))⟩
    rw [hpc]
    decide
  · exact ⟨fun hp => absurd hp hpc, fun _ => ht, step_of_not_running (not_running_iff.2 (.inr hnone))⟩

theorem step_halt_precise (h : step s = .next t) (hne : t.haltCode ≠ s.haltCode) :
    t.haltCode ≠ .none ∧ t = s.fetched.setHalt t.haltCode := by
  rcases step_cases s with ⟨-, hs⟩ | ⟨-, -, hs⟩ | ⟨-, -, i, -, hs⟩ | ⟨-, -, -, hs⟩
  · obtain rfl := next_eq hs h
    exact absurd rfl hne
  · obtain rfl := next_eq hs h
    exact absurd rfl hne
  · obtain ⟨ht, hnone, -⟩ := exec_halt_precise (hs.symm.trans h) hne
    exact ⟨hnone, ht⟩
  · obtain rfl := next_eq hs h
    exact ⟨nofun, rfl⟩

/-- Settles O20, for an instruction and for the STEP around it. -/
theorem haltsArePrecise : Obligations.HaltsArePrecise := by
  refine ⟨fun i s t h hne => (exec_halt_precise h hne).1, fun s t h hne => ?_⟩
  obtain ⟨hnone, ht⟩ := step_halt_precise h hne
  exact ⟨ht, step_of_not_running (not_running_iff.2 (.inl hnone))⟩

/-- An event that neither resets nor loads leaves a stopped core's latches and its `pc`. -/
theorem applyEvent_of_not_running {e : Event} (hs : ¬ Running s) (hreset : e ≠ .reset) (hcons : e ≠ .construct)
    (hload : ∀ bytes, e = .load bytes → 3584 < bytes.length) :
    ∃ t, applyEvent e s = .next t ∧ t.haltCode = s.haltCode ∧ t.fault = s.fault ∧ t.pc = s.pc := by
  cases e with
  | reset => exact absurd rfl hreset
  | construct => exact absurd rfl hcons
  | load bytes =>
    have hsame : (load bytes s).2 = s := congrArg Prod.snd (load_of_too_large (hload bytes rfl) s)
    exact ⟨s, congrArg Host.Outcome.next hsame, rfl, rfl, rfl⟩
  | step => exact ⟨s, step_of_not_running hs, rfl, rfl, rfl⟩
  | tick | keyDown | keyUp => exact ⟨_, rfl, rfl, rfl, rfl⟩

/-- Settles O21: no instruction clears a latch, nor does any other event; the three that do leave the reset state. -/
theorem onlyResetAndLoadClearTheLatches : Obligations.OnlyResetAndLoadClearTheLatches :=
  ⟨fun _ _ _ => exec_keeps_stopped, fun _ _ => applyEvent_of_not_running, fun _ => rfl, fun _ => rfl,
    fun _ s hfit => ⟨_, rfl, load_setMem_nil hfit s, fun _ => load_read_outside hfit s⟩⟩

/-- Settles O9: STEP's own halt for an unknown word, a halt no instruction records. -/
theorem unknownWordHalts : Obligations.UnknownWordHalts := by
  intro s op hr hw hop
  obtain rfl := fetchWord_eq_of_toNat hop
  refine ⟨fun hu => step_of_unknown hr hw (decodeWord_of_unknown hu), fun h => ?_⟩
  by_contra hn
  obtain ⟨i, hi⟩ := decodeWord_ok_of_not_unknown hn
  have hexec := (step_of_decode hr hw hi).symm.trans h
  obtain ⟨hhalt, -⟩ := hr
  have hne : HaltCode.unknownInstruction ≠ s.fetched.haltCode := by rw [State.fetched_eq]; simp [hhalt]
  obtain ⟨-, -, hunk⟩ := exec_halt_precise hexec hne
  exact hunk rfl

/-! ### The latch `ir` -/

theorem exec_ir (h : exec i s = .next t) : t.ir = s.ir := exec_frame h .ir (by cases i <;> simp [mayWrite])

theorem step_ir (h : step s = .next t) : t.ir = if Running s ∧ InWindow s then s.fetchWord else s.ir := by
  rcases step_cases s with ⟨hn, hs⟩ | ⟨-, hn, hs⟩ | ⟨hr, hw, i, -, hs⟩ | ⟨hr, hw, -, hs⟩
  · obtain rfl := next_eq hs h
    rw [if_neg fun hc => hn hc.1]
  · obtain rfl := next_eq hs h
    rw [if_neg fun hc => hn hc.2]
    rfl
  · rw [if_pos ⟨hr, hw⟩]
    exact exec_ir (hs.symm.trans h)
  · obtain rfl := next_eq hs h
    rw [if_pos ⟨hr, hw⟩]
    rfl

/-- Settles O22: only the fetch writes `ir`, and the events that reset. -/
theorem currentOpcodeIsTheLastFetched : Obligations.CurrentOpcodeIsTheLastFetched := by
  refine ⟨rfl, fun s t => step_ir, fun e s t hstep h => ?_⟩
  cases e with
  | step => exact absurd rfl hstep
  | load bytes =>
    obtain rfl := Host.Outcome.next.inj h
    by_cases hfit : bytes.length ≤ 3584
    · simp only [load_of_fits hfit, hfit, if_true]
      rfl
    · simp only [load_of_too_large (Nat.not_le.1 hfit), hfit, if_false]
  | construct | reset | tick | keyDown | keyUp =>
    obtain rfl := Host.Outcome.next.inj h
    rfl

end

/-! ### The first STEP after a reset -/

/-- Settles O24: the reset state runs and may fetch, so STEP's rules apply to it over any memory. -/
theorem firstStepAfterReset : Obligations.FirstStepAfterReset := by
  intro s
  have hr : Running (resetEvent s) := ⟨rfl, rfl⟩
  have hw : InWindow (resetEvent s) := (by decide : InWindow State.reset)
  refine ⟨_, rfl, hr, hw, rfl, rfl, rfl, rfl, fun m op hop => ?_⟩
  obtain rfl : ((resetEvent s).setMem m).fetchWord = op := fetchWord_eq_of_toNat hop
  have hr : Running ((resetEvent s).setMem m) := hr
  have hw : InWindow ((resetEvent s).setMem m) := hw
  refine ⟨?_, fun i hi => step_of_decode hr hw hi, fun e he => step_of_unknown hr hw he, ?_, fun hret => ?_⟩
  · obtain ⟨t, ht⟩ := stepAlwaysReturns ((resetEvent s).setMem m)
    exact ⟨t, ht, (step_ir ht).trans (if_pos ⟨hr, hw⟩)⟩
  · rintro ⟨x, y, n, hdrw⟩
    have hpc : ((resetEvent s).setMem m).fetched.pc - 2 = 0x200 := (by decide : (0x200 : Word) + 2 - 2 = 0x200)
    have hretry := exec_drw_of_no_vblank (s := ((resetEvent s).setMem m).fetched) rfl x y n
    rw [hpc] at hretry
    exact (step_of_decode hr hw hdrw).trans hretry
  · have hempty : ((resetEvent s).setMem m).fetched.pop = none := State.pop_none.2 rfl
    exact (step_of_decode hr hw hret).trans (exec_ret_of_pop_none hempty)

end Sys2Proof.Machine

/-! Where `pc` is after a STEP (10_state.md R29): a transfer, a skip, a retry, or the next instruction. -/

namespace Sys2Proof.Machine

section
variable {s t : State}

/-- The two answers of a skip, from the window (R29). -/
theorem skip_pc_toNat (hw : InWindow s) (p : Prop) [Decidable p] :
    (if p then s.pc + 2 + 2 else s.pc + 2 : Word).toNat = s.pc.toNat + if p then 4 else 2 := by
  split
  · exact pc_add_four_toNat hw.2
  · exact pc_add_two_toNat hw.2

theorem skip_unless_pc_toNat (hw : InWindow s) (p : Prop) [Decidable p] :
    (if p then s.pc + 2 else s.pc + 2 + 2 : Word).toNat = s.pc.toNat + if p then 2 else 4 := by
  split
  · exact pc_add_two_toNat hw.2
  · exact pc_add_four_toNat hw.2

theorem exec_drw_pc {x y : Reg} {n : Nibble} (h : exec (.drw x y n) s = .next t) :
    t.pc = if s.vblank then s.pc else s.pc - 2 := by
  cases hv : s.vblank with
  | false =>
    obtain rfl := next_eq (exec_drw_of_no_vblank hv x y n) h
    rfl
  | true =>
    rw [exec_drw_of_vblank hv] at h
    rcases unlessFault_cases h with ⟨c, -, rfl⟩ | ⟨-, hnext⟩
    · rfl
    · obtain rfl := Host.Outcome.next.inj hnext
      rfl

theorem exec_ldVxK_pc {x : Reg} (h : exec (.ldVxK x) s = .next t) :
    t.pc = if s.keys = 0 then s.pc - 2 else s.pc := by
  split
  case isTrue hk =>
    obtain rfl := next_eq (exec_ldVxK_of_no_key hk x) h
    rfl
  case isFalse hk =>
    obtain rfl := next_eq (exec_ldVxK_of_key hk x) h
    rfl

theorem exec_call_pc {nnn : Addr} (h : exec (.call nnn) s = .next t) :
    if s.sp.val = 16 then t.pc = s.pc else t.pc.toNat = nnn.toNat := by
  cases hp : s.push with
  | none =>
    obtain rfl := next_eq (exec_call_of_push_none nnn hp) h
    rw [if_pos (State.push_none.1 hp)]
    rfl
  | some u =>
    obtain rfl := next_eq (exec_call_of_push_some nnn hp) h
    obtain ⟨hroom, -⟩ := State.push_some hp
    rw [if_neg (by omega)]
    exact address_toNat nnn

theorem exec_ret_pc (h : exec .ret s = .next t) :
    if s.sp.val = 0 then t.pc = s.pc else ∃ k : Fin 16, k.val + 1 = s.sp.val ∧ t.pc = s.stack[k] := by
  cases hp : s.pop with
  | none =>
    obtain rfl := next_eq (exec_ret_of_pop_none hp) h
    rw [if_pos (State.pop_none.1 hp)]
    rfl
  | some p =>
    obtain ⟨target, u⟩ := p
    obtain rfl := next_eq (exec_ret_of_pop_some hp) h
    obtain ⟨hpos, hsp, -, k, hk, htarget⟩ := State.pop_some hp
    rw [if_neg (by omega)]
    exact ⟨k, by omega, htarget⟩

/-- A key skip that faults does not skip (R210, D15). -/
theorem exec_skp_pc {x : Reg} (h : exec (.skp x) s = .next t) :
    t.pc = if s.v[x].toNat ≤ 15 ∧ s.keys.getLsbD s.v[x].toNat = true then s.pc + 2 else s.pc := by
  rw [exec_skp] at h
  by_cases hx : s.v[x].toNat ≤ 15
  · rw [checkKey_of_le hx] at h
    obtain rfl := Host.Outcome.next.inj h
    simp only [hx, true_and, State.setPc_pc]
  · rw [checkKey_of_gt (Nat.not_le.1 hx)] at h
    obtain rfl := Host.Outcome.next.inj h
    rw [if_neg fun hc => hx hc.1]
    rfl

theorem exec_sknp_pc {x : Reg} (h : exec (.sknp x) s = .next t) :
    t.pc = if s.v[x].toNat ≤ 15 ∧ s.keys.getLsbD s.v[x].toNat = false then s.pc + 2 else s.pc := by
  rw [exec_sknp] at h
  by_cases hx : s.v[x].toNat ≤ 15
  · rw [checkKey_of_le hx] at h
    obtain rfl := Host.Outcome.next.inj h
    simp only [hx, true_and, State.setPc_pc, ← Bool.not_eq_true, ite_not]
  · rw [checkKey_of_gt (Nat.not_le.1 hx)] at h
    obtain rfl := Host.Outcome.next.inj h
    rw [if_neg fun hc => hx hc.1]
    rfl

end

/-- Settles O12: the transfers and the skips by their own rules, the rest by their frame. -/
theorem programCounterAfterStep : Obligations.ProgramCounterAfterStep := by
  intro s t i hr hw hd hstep
  have h : exec i s.fetched = .next t := (step_of_decode hr hw hd).symm.trans hstep
  cases i with
  | jp nnn =>
    obtain rfl := next_eq (exec_jp _ nnn) h
    exact address_toNat nnn
  | jpV0 nnn =>
    obtain rfl := next_eq (exec_jpV0 _ nnn) h
    exact address_add_zext_toNat nnn _
  | call nnn => exact exec_call_pc h
  | ret => exact exec_ret_pc h
  | seImm x nn =>
    obtain rfl := next_eq (exec_seImm _ x nn) h
    exact skip_pc_toNat hw (s.v[x] = nn)
  | sneImm x nn =>
    obtain rfl := next_eq (exec_sneImm _ x nn) h
    exact skip_unless_pc_toNat hw (s.v[x] = nn)
  | seReg x y n =>
    obtain rfl := next_eq (exec_seReg _ x y n) h
    exact skip_pc_toNat hw (s.v[x] = s.v[y])
  | sneReg x y n =>
    obtain rfl := next_eq (exec_sneReg _ x y n) h
    exact skip_unless_pc_toNat hw (s.v[x] = s.v[y])
  | skp x =>
    exact (congrArg BitVec.toNat (exec_skp_pc h)).trans (skip_pc_toNat hw _)
  | sknp x =>
    exact (congrArg BitVec.toNat (exec_sknp_pc h)).trans (skip_pc_toNat hw _)
  | drw x y n =>
    have hpc : t.pc = if s.vblank then s.pc + 2 else s.pc + 2 - 2 := exec_drw_pc h
    rwa [BitVec.add_sub_cancel] at hpc
  | ldVxK x =>
    have hpc : t.pc = if s.keys = 0 then s.pc + 2 - 2 else s.pc + 2 := exec_ldVxK_pc h
    rwa [BitVec.add_sub_cancel] at hpc
  | _ =>
    have hpc : t.pc = s.pc + 2 := exec_frame h .pc (by simp [mayWrite])
    exact (congrArg BitVec.toNat hpc).trans (pc_add_two_toNat hw.2)

/-! ### The retry instructions -/

section
variable {s t : State}

theorem fetched_setPc_back (s : State) : s.fetched.setPc (s.fetched.pc - 2) = { s with ir := s.fetchWord } := by
  have hpc : s.fetched.pc - 2 = s.pc := BitVec.add_sub_cancel s.pc 2
  rw [hpc]
  rfl

/-- Who stays at its own address: a retry whose gate is closed, or a transfer. -/
def StaysAt (s : State) (i : Instr) : Prop :=
  ((∃ x y n, i = .drw x y n) ∧ s.vblank = false) ∨ ((∃ x, i = .ldVxK x) ∧ s.keys = 0) ∨
  (∃ nnn, i = .jp nnn ∨ i = .call nnn ∨ i = .jpV0 nnn) ∨ i = .ret

theorem staysAt_of_pc_eq {i : Instr} (hr : Running s) (hw : InWindow s) (hd : decodeWord s.fetchWord = .ok i)
    (h : step s = .next t) (hpc : t.pc = s.pc) : StaysAt s i := by
  have hafter := programCounterAfterStep s t i hr hw hd h
  have hne : s.pc ≠ s.pc + 2 := fun heq => by
    have := (congrArg BitVec.toNat heq).trans (pc_add_two_toNat hw.2)
    omega
  rw [hpc] at hafter
  cases i with
  | jp nnn => exact .inr (.inr (.inl ⟨nnn, .inl rfl⟩))
  | call nnn => exact .inr (.inr (.inl ⟨nnn, .inr (.inl rfl)⟩))
  | jpV0 nnn => exact .inr (.inr (.inl ⟨nnn, .inr (.inr rfl)⟩))
  | ret => exact .inr (.inr (.inr rfl))
  | drw x y n =>
    refine .inl ⟨⟨x, y, n, rfl⟩, Bool.eq_false_iff.2 fun hv => hne ?_⟩
    exact hafter.trans (if_pos hv)
  | ldVxK x =>
    refine .inr (.inl ⟨⟨x, rfl⟩, ?_⟩)
    by_contra hk
    exact hne (hafter.trans (if_neg hk))
  | seImm | sneImm | seReg | sneReg | skp | sknp =>
    simp only at hafter
    split at hafter <;> omega
  | _ => simp only at hafter; omega

end

/-- Settles O11: the closed gates rewind to the instruction, the open ones leave `pc` past it. -/
theorem retryChangesOnlyTheLatchedOpcode : Obligations.RetryChangesOnlyTheLatchedOpcode := by
  intro s i hr hw hd
  have hstep : step s = exec i s.fetched := step_of_decode hr hw hd
  obtain ⟨t, ht⟩ := stepAlwaysReturns s
  have hpc := programCounterAfterStep s t i hr hw hd ht
  refine ⟨?_, ?_, fun u => staysAt_of_pc_eq hr hw hd⟩
  · rintro ⟨x, y, n, rfl⟩
    refine ⟨fun hv => ?_, fun hv => ⟨t, ht, hpc.trans (if_pos hv)⟩⟩
    rw [hstep, exec_drw_of_no_vblank (s := s.fetched) hv, fetched_setPc_back]
  · rintro ⟨x, rfl⟩
    refine ⟨fun hk => ?_, fun hk => ⟨t, ht, hpc.trans (if_neg hk)⟩⟩
    rw [hstep, exec_ldVxK_of_no_key (s := s.fetched) hk, fetched_setPc_back]

/-! ### The gate of the draw -/

/-- A proceeding draw clears `vblank`, or faults and leaves everything else. -/
theorem exec_drw_vblank {s t : State} {x y : Reg} {n : Nibble} (hv : s.vblank = true)
    (h : exec (.drw x y n) s = .next t) : t.vblank = false ∨ t = s.setFault .memRange := by
  by_cases hin : SpriteInMemory s n
  · obtain rfl := next_eq (exec_drw_of_inMemory x y hv hin) h
    exact .inl rfl
  · obtain rfl := next_eq (exec_drw_of_above x y hv hin) h
    exact .inr rfl

theorem exec_vblank_of_false {s t : State} {i : Instr} (h : exec i s = .next t) (hv : s.vblank = false) :
    t.vblank = false := by
  cases i with
  | drw x y n =>
    obtain rfl := next_eq (exec_drw_of_no_vblank hv x y n) h
    exact hv
  | _ => exact (exec_frame h .vblank (by simp [mayWrite])).trans hv

theorem step_vblank_of_false {s t : State} (h : step s = .next t) (hv : s.vblank = false) : t.vblank = false := by
  rcases step_cases s with ⟨-, hs⟩ | ⟨-, -, hs⟩ | ⟨-, -, i, -, hs⟩ | ⟨-, -, -, hs⟩
  · exact next_eq hs h ▸ hv
  · exact next_eq hs h ▸ hv
  · exact exec_vblank_of_false (hs.symm.trans h) hv
  · exact next_eq hs h ▸ hv

theorem load_vblank_of_false {s : State} (bytes : List Byte) (hv : s.vblank = false) :
    (load bytes s).2.vblank = false := by
  by_cases hfit : bytes.length ≤ 3584
  · rw [load_of_fits hfit]
    rfl
  · rw [load_of_too_large (Nat.not_le.1 hfit)]
    exact hv

/-- Settles O49: the gate of the draw, and who opens it. -/
theorem drawIsGatedByVblank : Obligations.DrawIsGatedByVblank := by
  refine ⟨fun s x y n hv => exec_drw_of_no_vblank hv x y n, fun s t x y n => exec_drw_vblank,
    fun i s t => exec_vblank_of_false, fun e s t hne h hv => ?_, fun s => rfl, rfl⟩
  cases e with
  | tick => exact absurd rfl hne
  | step => exact step_vblank_of_false h hv
  | load bytes =>
    obtain rfl := Host.Outcome.next.inj h
    exact load_vblank_of_false bytes hv
  | construct | reset =>
    obtain rfl := Host.Outcome.next.inj h
    rfl
  | keyDown | keyUp =>
    obtain rfl := Host.Outcome.next.inj h
    exact hv

end Sys2Proof.Machine

/-! The invariant of a run (10_state.md R23, R29, 60_exceptions.md R264): an instruction stores only to a checked range, the
stack holds only addresses after a CALL, and every event keeps `RunInv`. -/

namespace Sys2Proof.Machine

/-! ### Memory -/

/-- Memory is as before, or a block was stored above the protected bytes and inside the address space. -/
def StoresChecked (s t : State) : Prop :=
  t.mem = s.mem ∨ ∃ bs : List Byte,
    0x200 ≤ s.i.toNat ∧ s.i.toNat + bs.length ≤ 0x1000 ∧ t.mem = Memory.writeBytes s.mem s.i.toNat bs

section
variable {s t : State} {i : Instr}

theorem storesChecked_of_checkStore {count : Nat} {bs : List Byte} {u : State} (hc : 1 ≤ count)
    (h : unlessFault (s.checkStore count) s (.next u) = .next t) (hlen : bs.length = count)
    (hu : u.mem = Memory.writeBytes s.mem s.i.toNat bs) : StoresChecked s t := by
  rcases unlessFault_cases h with ⟨c, -, rfl⟩ | ⟨hnone, hnext⟩
  · exact .inl rfl
  · obtain rfl := Host.Outcome.next.inj hnext
    obtain ⟨hlo, hhi⟩ := range_of_checkStore_none hc hnone
    exact .inr ⟨bs, hlo, hlen ▸ hhi, hu⟩

theorem mem_of_unlessFault {check : Option FaultCode} {u : State} (h : unlessFault check s (.next u) = .next t)
    (hu : u.mem = s.mem) : t.mem = s.mem := by
  rcases unlessFault_cases h with ⟨c, -, rfl⟩ | ⟨-, hnext⟩
  · rfl
  · exact Host.Outcome.next.inj hnext ▸ hu

theorem exec_ret_mem (h : exec .ret s = .next t) : t.mem = s.mem := by
  cases hp : s.pop with
  | none => exact next_eq (exec_ret_of_pop_none hp) h ▸ rfl
  | some p =>
    obtain ⟨target, u⟩ := p
    obtain ⟨-, -, hu, -⟩ := State.pop_some hp
    obtain rfl := next_eq (exec_ret_of_pop_some hp) h
    rw [hu]
    rfl

theorem exec_call_mem {nnn : Addr} (h : exec (.call nnn) s = .next t) : t.mem = s.mem := by
  cases hp : s.push with
  | none => exact next_eq (exec_call_of_push_none nnn hp) h ▸ rfl
  | some u =>
    obtain ⟨-, -, hu, -⟩ := State.push_some hp
    obtain rfl := next_eq (exec_call_of_push_some nnn hp) h
    rw [hu]
    rfl

theorem exec_drw_mem {x y : Reg} {n : Nibble} (h : exec (.drw x y n) s = .next t) : t.mem = s.mem := by
  cases hv : s.vblank with
  | false => exact next_eq (exec_drw_of_no_vblank hv x y n) h ▸ rfl
  | true =>
    rw [exec_drw_of_vblank hv] at h
    exact mem_of_unlessFault h rfl

theorem exec_ldVxK_mem {x : Reg} (h : exec (.ldVxK x) s = .next t) : t.mem = s.mem := by
  by_cases hk : s.keys = 0
  · exact next_eq (exec_ldVxK_of_no_key hk x) h ▸ rfl
  · exact next_eq (exec_ldVxK_of_key hk x) h ▸ rfl

/-- Only FX33 and FX55 store, and only what their check lets through (R72). -/
theorem exec_storesChecked (h : exec i s = .next t) : StoresChecked s t := by
  cases i with
  | ldB x => exact storesChecked_of_checkStore (by decide) ((exec_ldB s x).symm.trans h) rfl rfl
  | storeRegs x =>
    exact storesChecked_of_checkStore (by omega) ((exec_storeRegs s x).symm.trans h) (s.regsUpTo_length x) rfl
  | loadRegs x => exact .inl (mem_of_unlessFault ((exec_loadRegs s x).symm.trans h) (by simp))
  | skp x => exact .inl (mem_of_unlessFault ((exec_skp s x).symm.trans h) rfl)
  | sknp x => exact .inl (mem_of_unlessFault ((exec_sknp s x).symm.trans h) rfl)
  | ret => exact .inl (exec_ret_mem h)
  | call => exact .inl (exec_call_mem h)
  | drw => exact .inl (exec_drw_mem h)
  | ldVxK => exact .inl (exec_ldVxK_mem h)
  | seImm | sneImm | seReg | sneReg =>
    rw [skipIf_next.1 h]
    exact .inl (by split <;> rfl)
  | _ => exact .inl (congrArg State.mem (Host.Outcome.next.inj h)).symm

theorem StoresChecked.read_low (h : StoresChecked s t) {a : Nat} (ha : a < 0x200) : t.read a = s.read a := by
  rcases h with hm | ⟨bs, hlo, -, hm⟩
  · rw [State.read_eq, State.read_eq, hm]
  · rw [State.read_eq, State.read_eq, hm, Memory.read_writeBytes, dif_neg (by omega)]

theorem StoresChecked.wf (h : StoresChecked s t) (hwf : Memory.wf s.mem) : Memory.wf t.mem := by
  rcases h with hm | ⟨bs, -, hhi, hm⟩
  · exact hm ▸ hwf
  · exact hm ▸ Memory.writeBytes_wf hwf hhi

theorem StoresChecked.lowest (h : StoresChecked s t) (hlow : ∀ c ∈ s.mem, 0x200 ≤ c.1) :
    ∀ c ∈ t.mem, 0x200 ≤ c.1 := by
  rcases h with hm | ⟨bs, hlo, -, hm⟩
  · exact hm ▸ hlow
  · exact hm ▸ Memory.writeBytes_lowest hlow hlo bs

/-- Settles O17: what STEP stores lies at 0x200 or above. -/
theorem stepNeverStoresBelowTheProgram : Obligations.StepNeverStoresBelowTheProgram := by
  intro s t h a ha
  rcases step_cases s with ⟨-, hs⟩ | ⟨-, -, hs⟩ | ⟨-, -, i, -, hs⟩ | ⟨-, -, -, hs⟩
  · exact next_eq hs h ▸ rfl
  · exact next_eq hs h ▸ rfl
  · exact (exec_storesChecked (hs.symm.trans h)).read_low ha
  · exact next_eq hs h ▸ rfl

/-! ### The stack and `pc` -/

/-- Every live entry of the stack is the address after some CALL in the window (R141). -/
def StackInRange (s : State) : Prop :=
  ∀ k : Fin 16, k.val < s.sp.val → 0x202 ≤ s.stack[k].toNat ∧ s.stack[k].toNat ≤ 0x1000

theorem stackInRange_of_same (hs : StackInRange s) (hsp : t.sp = s.sp) (hslot : ∀ k : Fin 16, t.stack[k] = s.stack[k]) :
    StackInRange t := by
  intro k hk
  rw [hslot]
  exact hs k (hsp ▸ hk)

theorem exec_ret_stackInRange (hs : StackInRange s) (h : exec .ret s = .next t) : StackInRange t := by
  have hslot : ∀ k : Fin 16, t.stack[k] = s.stack[k] := fun k => exec_frame h (.stackSlot k) (by simp [mayWrite])
  obtain ⟨u, hu, hempty, hpop⟩ := exec_ret_sp s
  obtain rfl := next_eq h hu
  intro k hk
  rw [hslot]
  refine hs k ?_
  rcases Nat.eq_zero_or_pos s.sp.val with h0 | hpos
  · obtain ⟨-, hsp⟩ := hempty h0
    exact hsp ▸ hk
  · have hsp := hpop hpos
    omega

theorem exec_call_stackInRange {nnn : Addr} (hs : StackInRange s) (hpc : 0x202 ≤ s.pc.toNat ∧ s.pc.toNat ≤ 0x1000)
    (h : exec (.call nnn) s = .next t) : StackInRange t := by
  cases hp : s.push with
  | none =>
    obtain rfl := next_eq (exec_call_of_push_none nnn hp) h
    exact stackInRange_of_same hs rfl fun _ => rfl
  | some u =>
    obtain rfl := next_eq (exec_call_of_push_some nnn hp) h
    obtain ⟨-, hsp, -, hslot⟩ := State.push_some hp
    intro k hk
    have hk' : k.val < s.sp.val + 1 := hsp ▸ hk
    rw [State.setPc_stack, hslot]
    split
    case isTrue => exact hpc
    case isFalse hne => exact hs k (by omega)

theorem exec_stackInRange (hs : StackInRange s) (hpc : 0x202 ≤ s.pc.toNat ∧ s.pc.toNat ≤ 0x1000)
    (h : exec i s = .next t) : StackInRange t := by
  cases i with
  | ret => exact exec_ret_stackInRange hs h
  | call => exact exec_call_stackInRange hs hpc h
  | _ =>
    exact stackInRange_of_same hs (exec_frame h .sp (by simp [mayWrite]))
      fun k => exec_frame h (.stackSlot k) (by simp [mayWrite])

/-- BNNN reaches highest (R29). -/
theorem step_pc_le (hr : Running s) (hw : InWindow s) (hs : StackInRange s) (hd : decodeWord s.fetchWord = .ok i)
    (h : step s = .next t) : t.pc.toNat ≤ 0x10FE := by
  have hafter := programCounterAfterStep s t i hr hw hd h
  have hnext := pc_add_two_toNat hw.2
  obtain ⟨-, hhi⟩ := hw
  cases i with
  | jp nnn => have := nnn.isLt; simp only at hafter; omega
  | jpV0 nnn =>
    have := nnn.isLt
    have := s.v[(0 : Reg)].isLt
    simp only at hafter
    omega
  | call nnn =>
    have := nnn.isLt
    simp only at hafter
    split at hafter
    · rw [hafter]; omega
    · omega
  | ret =>
    simp only at hafter
    split at hafter
    · rw [hafter]; omega
    · obtain ⟨k, hk, hpc⟩ := hafter
      obtain ⟨-, hle⟩ := hs k (by omega)
      rw [hpc]
      omega
  | drw | ldVxK =>
    simp only at hafter
    split at hafter <;> rw [hafter] <;> omega
  | seImm | sneImm | seReg | sneReg | skp | sknp =>
    simp only at hafter
    split at hafter <;> omega
  | _ => simp only at hafter; omega

/-- A running core meets the latch clause after any instruction: at most one latch is recorded (R264). -/
theorem exec_latches_of_running (hr : Running s) (h : exec i s = .next t) : t.haltCode = .none ∨ t.fault = .none := by
  obtain ⟨hhalt, hfault⟩ := hr
  rcases exec_recordsOneLatch h with ⟨c, -, -, rfl⟩ | ⟨c, -, -, rfl⟩ | ⟨hsame, -⟩
  · exact .inl hhalt
  · exact .inr hfault
  · exact .inl (hsame.trans hhalt)

/-! ### Every STEP and every event -/

/-- Settles O14: a STEP that executes keeps each clause by its own lemma, the others change a latch or nothing. -/
theorem stepKeepsTheInvariant : Obligations.StepKeepsTheInvariant := by
  intro s t hinv h
  obtain ⟨hwf, hlow, hlatch, hstack, hpc⟩ := hinv
  rcases step_cases s with ⟨-, hs⟩ | ⟨⟨hhalt, -⟩, -, hs⟩ | ⟨hr, hw, i, hd, hs⟩ | ⟨⟨-, hfault⟩, hw, -, hs⟩
  · obtain rfl := next_eq hs h
    exact ⟨hwf, hlow, hlatch, hstack, hpc⟩
  · obtain rfl := next_eq hs h
    exact ⟨hwf, hlow, .inl hhalt, hstack, hpc⟩
  · have hexec : exec i s.fetched = .next t := hs.symm.trans h
    have hstores : StoresChecked s.fetched t := exec_storesChecked hexec
    have hfetched : 0x202 ≤ s.fetched.pc.toNat ∧ s.fetched.pc.toNat ≤ 0x1000 := by
      have hnext : s.fetched.pc.toNat = s.pc.toNat + 2 := pc_add_two_toNat hw.2
      obtain ⟨hlo, hhi⟩ := hw
      omega
    have hstack' : StackInRange s.fetched := hstack
    exact ⟨hstores.wf hwf, hstores.lowest hlow, exec_latches_of_running (s := s.fetched) hr hexec,
      exec_stackInRange hstack' hfetched hexec, step_pc_le hr hw hstack hd h⟩
  · obtain rfl := next_eq hs h
    have hnext := pc_add_two_toNat hw.2
    obtain ⟨-, hhi⟩ := hw
    refine ⟨hwf, hlow, .inr hfault, hstack, ?_⟩
    show (s.pc + 2).toNat ≤ 0x10FE
    omega

theorem resetEvent_runInv (s : State) : RunInv (resetEvent s) := resetMeetsTheInvariant

theorem load_runInv (bytes : List Byte) (hinv : RunInv s) : RunInv (load bytes s).2 := by
  by_cases hfit : bytes.length ≤ 3584
  · rw [load_of_fits hfit]
    obtain ⟨hwf, hlow, hlatch, hstack, hpc⟩ := resetEvent_runInv s
    exact ⟨State.store_wf hwf (by omega), Memory.writeBytes_lowest hlow (Nat.le_refl _) bytes, hlatch, hstack, hpc⟩
  · rw [load_of_too_large (Nat.not_le.1 hfit)]
    exact hinv

theorem applyEvent_runInv (e : Event) (hinv : RunInv s) : ∃ t, applyEvent e s = .next t ∧ RunInv t := by
  cases e with
  | construct | reset => exact ⟨_, rfl, resetEvent_runInv s⟩
  | load bytes => exact ⟨_, rfl, load_runInv bytes hinv⟩
  | step =>
    obtain ⟨t, ht⟩ := stepAlwaysReturns s
    exact ⟨t, ht, stepKeepsTheInvariant s t hinv ht⟩
  | tick | keyDown | keyUp => exact ⟨_, rfl, hinv⟩

/-- Settles O15, by induction on the list of events. -/
theorem eventsKeepTheInvariant : Obligations.EventsKeepTheInvariant := by
  intro es
  induction es with
  | nil => exact fun s hinv => ⟨s, rfl, hinv⟩
  | cons e es ih =>
    intro s hinv
    obtain ⟨t, ht, htinv⟩ := applyEvent_runInv e hinv
    obtain ⟨u, hu, huinv⟩ := ih t htinv
    refine ⟨u, ?_, huinv⟩
    rw [applyEvents, ht]
    exact hu

end

end Sys2Proof.Machine
